-- ==== Sys2Proof/Word.lean ====
section
/-! DEFINITION. The word sizes of the block (spec/00_scope.md R6 to R8): nothing but names for them. -/

namespace Sys2Proof

/-- A data register, a timer, a memory byte or the immediate NN (R15, R20, R28, R43). -/
abbrev Byte := BitVec 8

/-- I, PC, a stack entry or an instruction word (R17, R18, R19, R42). -/
abbrev Word := BitVec 16

/-- A register index X or Y, the row count N, or a hex key code (R43, R22). -/
abbrev Nibble := BitVec 4

/-- The address field NNN (R43). -/
abbrev Addr12 := BitVec 12

end Sys2Proof
end

