-- ==== Sys2Proof/Syntax.lean ====
section
/-! DEFINITION. The 34 instructions (spec/00_scope.md R2), one constructor per row of spec/opcode_table.json, in the
table's order. Every operand's type admits exactly the values of its field (spec/30_encoding.md R43, R44), so no term of
this type is ill-formed. -/

namespace Sys2Proof

/-- An instruction. `x` and `y` are register indices, `n` the row count, `nn` an immediate byte, `nnn` an address.
SHR and SHL keep the Y field they ignore (R48), so that a word and its instruction say the same. -/
inductive Instr where
  /-- 00E0 CLS (R85) -/
  | cls
  /-- 00EE RET (R58) -/
  | ret
  /-- 1NNN JP addr (R59) -/
  | jp (nnn : Addr12)
  /-- 2NNN CALL addr (R60) -/
  | call (nnn : Addr12)
  /-- 3XNN SE Vx, NN (R61) -/
  | seImm (x : Nibble) (nn : Byte)
  /-- 4XNN SNE Vx, NN (R62) -/
  | sneImm (x : Nibble) (nn : Byte)
  /-- 5XY0 SE Vx, Vy (R63) -/
  | seReg (x y : Nibble)
  /-- 6XNN LD Vx, NN (R67) -/
  | ldImm (x : Nibble) (nn : Byte)
  /-- 7XNN ADD Vx, NN (R68) -/
  | addImm (x : Nibble) (nn : Byte)
  /-- 8XY0 LD Vx, Vy (R69) -/
  | ldReg (x y : Nibble)
  /-- 8XY1 OR Vx, Vy (R70) -/
  | orReg (x y : Nibble)
  /-- 8XY2 AND Vx, Vy (R71) -/
  | andReg (x y : Nibble)
  /-- 8XY3 XOR Vx, Vy (R72) -/
  | xorReg (x y : Nibble)
  /-- 8XY4 ADD Vx, Vy (R73) -/
  | addReg (x y : Nibble)
  /-- 8XY5 SUB Vx, Vy (R74) -/
  | subReg (x y : Nibble)
  /-- 8XY6 SHR Vx (R75); `y` is ignored -/
  | shr (x y : Nibble)
  /-- 8XY7 SUBN Vx, Vy (R76) -/
  | subnReg (x y : Nibble)
  /-- 8XYE SHL Vx (R77); `y` is ignored -/
  | shl (x y : Nibble)
  /-- 9XY0 SNE Vx, Vy (R64) -/
  | sneReg (x y : Nibble)
  /-- ANNN LD I, NNN (R79) -/
  | ldI (nnn : Addr12)
  /-- BNNN JP V0, NNN (R65) -/
  | jpV0 (nnn : Addr12)
  /-- CXNN RND Vx, NN (R78) -/
  | rnd (x : Nibble) (nn : Byte)
  /-- DXYN DRW Vx, Vy, N (R86, R87) -/
  | drw (x y n : Nibble)
  /-- EX9E SKP Vx (R91) -/
  | skp (x : Nibble)
  /-- EXA1 SKNP Vx (R92) -/
  | sknp (x : Nibble)
  /-- FX07 LD Vx, DT (R94) -/
  | ldVDt (x : Nibble)
  /-- FX0A LD Vx, K (R93) -/
  | ldK (x : Nibble)
  /-- FX15 LD DT, Vx (R95) -/
  | ldDtV (x : Nibble)
  /-- FX18 LD ST, Vx (R96) -/
  | ldStV (x : Nibble)
  /-- FX1E ADD I, Vx (R80) -/
  | addI (x : Nibble)
  /-- FX29 LD F, Vx (R81) -/
  | ldF (x : Nibble)
  /-- FX33 LD B, Vx (R82) -/
  | ldB (x : Nibble)
  /-- FX55 LD [I], Vx (R83) -/
  | ldMemV (x : Nibble)
  /-- FX65 LD Vx, [I] (R84) -/
  | ldVMem (x : Nibble)
deriving DecidableEq, Repr

end Sys2Proof
end

