-- ==== Sys2Proof/Config.lean ====
section
/-! DEFINITION. What is fixed when the block is built (spec/00_scope.md R6), the events at its input ports, and the free
values: the RND draw (spec/42_alu.md R78) and the order in which the events come (spec/60_exceptions.md R104). -/

namespace Sys2Proof

/-- MEM_SIZE (R6): addresses 0x000 to 0xFFF. -/
def Config.memSize : Nat := 0x1000

/-- FONT_BASE (R6): the 80 font bytes stand at 0x050 to 0x09F. -/
def Config.fontBase : Nat := 0x050

/-- PROG_BASE (R6): where a program is loaded and where execution starts. -/
def Config.progBase : Nat := 0x200

/-- MAX_PROGRAM (R6, R118): 4096 - 0x200 bytes. -/
def Config.maxProgram : Nat := 3584

/-- DISPLAY_W (R6). -/
def Config.displayW : Nat := 64

/-- DISPLAY_H (R6). -/
def Config.displayH : Nat := 32

/-- The byte that RND's draw number `n` gives (R78, R26; 92_eei_decisions.md D16): a FREE VALUE. It has no body, so
nothing can be proved of it but what holds for every byte. DESIGN CHOICE, notes/assumptions/2.md. -/
opaque Config.rnd : Nat → Byte

/-- An event at one of the block's input ports (R113): what moves at a boundary. -/
inductive Input where
  /-- The cycle strobe: enables one CpuStep (spec/40_dispatcher.md R50, R57). -/
  | cycle
  /-- The 60 Hz strobe of the timer engine (R105). -/
  | timerTick
  /-- A key with this hex code goes down (R108). -/
  | keyDown (k : Nibble)
  /-- A key with this hex code goes up (R109). -/
  | keyUp (k : Nibble)
  /-- The host's quit signal (R112). -/
  | quit
deriving DecidableEq, Repr

/-- The events of a free round before its timer tick (R104, D1, D13): a FREE VALUE. It has no body: any finite list of
events, in any order. DESIGN CHOICE, notes/assumptions/1.md. -/
opaque Config.beforeTick : Nat → List Input

/-- The events of a free round between its timer tick and its cycle strobe (R104, D1, D13): a FREE VALUE, as
`Config.beforeTick` is. DESIGN CHOICE, notes/assumptions/1.md. -/
opaque Config.beforeCycle : Nat → List Input

/-- The parameters R6 marks OPEN and that a rule reads: STACK_DEPTH (D3; at least 16) and
QUIRK_TIMER_PER_INSTRUCTION (D19). The state carries them unchanged, so that a statement about every state is a
statement about every block: notes/assumptions/3.md. -/
structure Params where
  stackDepth : Nat
  quirkTimerPerInstruction : Bool
deriving DecidableEq, Repr

/-- The spec's own defaults (R6): sixteen entries, and ticks not tied to instructions. -/
def Params.default : Params := { stackDepth := 16, quirkTimerPerInstruction := false }

end Sys2Proof
end

