-- ==== Sys2Proof/Machine/State.lean ====
section
/-! DEFINITION. The state of the block (spec/10_state.md R15 to R27) as plain data, how a step can stop, and the state
right after reset. The last four fields of `State` are the model's own: the parameters, the inputs still to come, the number
of rounds of free inputs taken and the number of RND draws made, none of which the spec calls state (R26). -/

namespace Sys2Proof.Machine

/-- Memory as the list of the bytes that differ from their reset content, at strictly rising addresses (spec/20_memory.md
R28, R35). -/
abbrev Memory := List Host.Cell

/-- The framebuffer: 32 rows, top to bottom, of 64 one-bit pixels; column x of a row is its bit 63 - x, so that the leftmost
pixel is the most significant bit, as in a sprite byte (R21, R8). -/
abbrev Framebuffer := Vector (BitVec 64) 32

/-- The kinds of fatal fault that an instruction can raise (spec/60_exceptions.md R97). -/
inductive FaultKind where
  | memoryFault
  | stackOverflow
  | stackUnderflow
deriving DecidableEq, Repr

/-- The run state (R23). -/
inductive Run where
  /-- The next boundary fetches an instruction. -/
  | running
  /-- FX0A is blocked and will write the next key-down code to V[x]. -/
  | waitKey (x : Nibble)
  /-- A fatal fault was raised by the instruction at `addr`; final. -/
  | faulted (kind : FaultKind) (addr : Word)
  /-- The host's quit ended the loop; final. -/
  | quit
deriving DecidableEq, Repr

/-- An entry of the diagnostic sink (R24, R98, R99). -/
inductive Diag where
  /-- UnknownOpcode(a, w): a non-fatal report. -/
  | unknownOpcode (addr : Word) (word : Word)
  /-- Fault(kind, a, info): the final report; `info` is the faulting address of a MemoryFault (R97). -/
  | fault (kind : FaultKind) (addr : Word) (info : Option Nat)
deriving DecidableEq, Repr

/-- The block. -/
structure State where
  /-- mem (R28). -/
  mem : Memory
  /-- V[0] to V[15] (R15); V[15] is VF (R16). -/
  v : Vector Byte 16
  /-- I (R17). -/
  i : Word
  /-- PC (R18). -/
  pc : Word
  /-- S, the return-address stack, its last entry the newest (R19). -/
  stack : List Word
  /-- DT (R20). -/
  dt : Byte
  /-- ST (R20). -/
  st : Byte
  /-- fb (R21). -/
  fb : Framebuffer
  /-- The set of pressed keys: entry k says whether k is in it (R22). -/
  pressed : Vector Bool 16
  /-- The most-recent slot (R22). -/
  last : Option Nibble
  /-- run (R23). -/
  run : Run
  /-- tone (R24). -/
  tone : Bool
  /-- diag, oldest first (R24). -/
  diag : List Diag
  /-- The block's parameters (R6). The model's own field: no step changes it (notes/assumptions/3.md). -/
  params : Params
  /-- The events still to come at the input ports, in their order of arrival (R26, R104, R110, R113). The model's own
  field (notes/assumptions/1.md). -/
  inputs : List Input
  /-- How many free rounds of events have come after `inputs` ran empty (R104). The model's own field
  (notes/assumptions/1.md, notes/assumptions/14.md). -/
  rounds : Nat
  /-- How many RND draws have been made (R26, R78). The model's own field (notes/assumptions/2.md). -/
  draws : Nat
deriving DecidableEq, Repr

/-- Why there is no next state. Both `ended` constructors are the spec's stuck states (spec/93_implementation_defined.md
U11): they are safe, for the block itself takes no step there. -/
inductive Fault where
  /-- Raised by `step` when run = Faulted(kind, addr): no agent steps (R56, R98). Safe. -/
  | endedFaulted (kind : FaultKind) (addr : Word)
  /-- Raised by `step` when run = Quit: no agent steps (R56, R112). Safe. -/
  | endedQuit
  /-- Raised by `load` alone, never by `step`: ProgramTooLarge(len), fatal before boot (R97, R117). Safe. -/
  | programTooLarge (len : Nat)
deriving DecidableEq, Repr

/-- Why an instruction has no meaning. -/
inductive Refusal where
  /-- Raised by an arm of `exec` whose instruction has no meaning yet. Safe. No arm of this model raises it. -/
  | notModelled (mnemonic : String)
deriving DecidableEq, Repr

/-- What a step or a meaning answers. -/
abbrev Answer := Host.Outcome State Fault Refusal

/-- The state right after load of an empty program, every field at the value of R27 (decisions D26, D27 and D28 for fb, the
keypad, run, tone and diag); the parameters at their defaults (R6), no input on its way,
no free round taken and no draw made. -/
def State.reset : State where
  mem := []
  v := Vector.replicate 16 0#8
  i := 0x0000#16
  pc := 0x0200#16
  stack := []
  dt := 0#8
  st := 0#8
  fb := Vector.replicate 32 0#64
  pressed := Vector.replicate 16 false
  last := none
  run := .running
  tone := false
  diag := []
  params := Params.default
  inputs := []
  rounds := 0
  draws := 0

end Sys2Proof.Machine
end

