-- ==== Sys2Proof/Machine/Ops.lean ====
section
/-! DEFINITION. The named operations on the state: registers, program counter, stack, framebuffer, keypad, the fetch, the
entry into a fatal fault and the unknown-opcode report. There is no return from a fault in this block: a fatal fault is
terminal (spec/60_exceptions.md R100). -/

namespace Sys2Proof.Machine

/-! ### Registers (spec/10_state.md R15 to R18) -/

/-- V[x]. -/
def State.readV (s : State) (x : Nibble) : Byte := s.v[x.toNat]'(x.isLt)

/-- V[x] <- b. -/
def State.writeV (s : State) (x : Nibble) (b : Byte) : State := { s with v := s.v.set x.toNat b x.isLt }

/-- The index of VF (R16). -/
abbrev vf : Nibble := 0xF#4

/-- The PC advance of the fetch: the execute phase of the instruction at a sees a + 2 (R18, spec/20_memory.md R32). -/
def State.advance (s : State) : State := { s with pc := s.pc + 2#16 }

/-- A skip: a taken one adds another 2 (R18). -/
def State.skipIf (s : State) (taken : Bool) : State := { s with pc := if taken then s.pc + 2#16 else s.pc }

/-- pc <- target. -/
def State.jump (s : State) (target : Word) : State := { s with pc := target }

/-- I <- w. -/
def State.writeI (s : State) (w : Word) : State := { s with i := w }

/-- DT <- b. -/
def State.writeDt (s : State) (b : Byte) : State := { s with dt := b }

/-- ST <- b; `tone` waits for the next tick (R96). -/
def State.writeSt (s : State) (b : Byte) : State := { s with st := b }

/-! ### The return-address stack (R19) -/

/-- push(v), or none when the stack is full. -/
def State.push (s : State) (w : Word) : Option State :=
  if s.stack.length < s.params.stackDepth then some { s with stack := s.stack ++ [w] } else none

/-- pop(), or none when the stack is empty. -/
def State.pop (s : State) : Option (Word × State) :=
  match s.stack.getLast? with
  | some w => some (w, { s with stack := s.stack.dropLast })
  | none => none

/-! ### Memory (spec/20_memory.md R28 to R34) -/

/-- mem[a]. -/
def State.readMem (s : State) (a : Nat) : Byte := Memory.read s.mem a

/-- Store bytes from `a` on; the caller has checked the range (R30). -/
def State.storeBytes (s : State) (a : Nat) (bs : List Byte) : State := { s with mem := Memory.writeBytes s.mem a bs }

/-! ### The framebuffer (R21, spec/44_display.md) -/

/-- pixel(x, y); off outside the 64 x 32 buffer. -/
def Framebuffer.pixel (fb : Framebuffer) (x y : Nat) : Bool :=
  if h : y < 32 then (fb[y]).getMsbD x else false

/-- Turn pixel(x, y) over; outside the buffer nothing changes. -/
def Framebuffer.flipPixel (fb : Framebuffer) (p : Nat × Nat) : Framebuffer :=
  if h : p.2 < 32 ∧ p.1 < 64 then fb.set p.2 (fb[p.2] ^^^ BitVec.twoPow 64 (63 - p.1)) h.1 else fb

/-- pixel(x, y) of the state. -/
def State.pixel (s : State) (x y : Nat) : Bool := Framebuffer.pixel s.fb x y

/-- Every pixel off. -/
def blankScreen : Framebuffer := Vector.replicate 32 0#64

/-- The pixels of the clipped rectangle at which the sprite has a 1 bit, for the origin (sx, sy): rows below the bottom edge
and columns beyond the right edge are clipped, and bit 7 of a byte is the leftmost pixel (R86). -/
def litPixels (sprite : List Byte) (sx sy : Nat) : List (Nat × Nat) :=
  (List.range sprite.length).flatMap fun r =>
    ((List.range 8).filter fun c =>
      (sprite.getD r 0#8).getLsbD (7 - c) && decide (sx + c < Config.displayW) && decide (sy + r < Config.displayH)).map
      fun c => (sx + c, sy + r)

/-- The pixels after the draw: each lit sprite bit turns its pixel over (R86, C3). -/
def drawSprite (fb : Framebuffer) (sprite : List Byte) (sx sy : Nat) : Framebuffer :=
  (litPixels sprite sx sy).foldl Framebuffer.flipPixel fb

/-! ### The keypad (R22) -/

/-- k in pressed. -/
def State.isPressed (s : State) (k : Nibble) : Bool := s.pressed[k.toNat]'(k.isLt)

/-- Put k into, or take it out of, pressed. -/
def State.setPressed (s : State) (k : Nibble) (b : Bool) : State :=
  { s with pressed := s.pressed.set k.toNat b k.isLt }

/-! ### Fetch, fault entry and the unknown opcode -/

/-- The word Fetch16 reads, or none where it raises MemoryFault (spec/20_memory.md R32, R31). The PC advance is
`State.advance`. -/
def State.fetch16 (s : State) : Option Word :=
  if Config.memSize ≤ s.pc.toNat + 1 then none
  else some (bigEndian (s.readMem s.pc.toNat) (s.readMem (s.pc.toNat + 1)))

/-- Fatal fault entry (spec/60_exceptions.md R98), from the state at the boundary before the step, where PC is the address of
the instruction: run and diag change and nothing else. -/
def State.enterFault (s : State) (kind : FaultKind) (info : Option Nat) : State :=
  { s with run := .faulted kind s.pc, diag := s.diag ++ [.fault kind s.pc info] }

/-- Executing an unknown word: the report, and the PC advance of the fetch (spec/40_dispatcher.md R55, R99). -/
def State.reportUnknown (s : State) (w : Word) : State :=
  { s with pc := s.pc + 2#16, diag := s.diag ++ [.unknownOpcode s.pc w] }

/-- The spec's numeric codes of the faults (R97, D12): labels that no program can read. -/
def FaultKind.code : FaultKind → Nat
  | .memoryFault => 1
  | .stackOverflow => 2
  | .stackUnderflow => 3

/-- The code of a report (R97). -/
def Diag.code : Diag → Nat
  | .fault kind _ _ => FaultKind.code kind
  | .unknownOpcode _ _ => 4

/-- The code of ProgramTooLarge (R97); the other stops of `step` repeat no fault and have none. -/
def Fault.code : Fault → Option Nat
  | .programTooLarge _ => some 5
  | .endedFaulted _ _ => none
  | .endedQuit => none

end Sys2Proof.Machine
end

