-- ==== Sys2Proof/Machine/Agents.lean ====
section
/-! DEFINITION. The agents beside the CPU (spec/60_exceptions.md R104 to R112): the timer engine, the keypad device and the
host's quit. Each function is one atomic step of its agent, taken at a boundary. -/

namespace Sys2Proof.Machine

/-- TimerTick (R105): the tone test reads ST before the decrement. -/
def State.timerTick (s : State) : State :=
  { s with
    dt := if 0 < s.dt.toNat then s.dt - 1#8 else s.dt
    st := if 0 < s.st.toNat then s.st - 1#8 else s.st
    tone := decide (0 < s.st.toNat) }

/-- The tick that follows a CPU step when QUIRK_TIMER_PER_INSTRUCTION is true (R104): exactly one, and none while the block
waits for a key or after a fatal fault (notes/assumptions/5.md). -/
def State.quirkTick (s : State) : State :=
  if s.params.quirkTimerPerInstruction && decide (s.run = .running) then s.timerTick else s

/-- A free step of the timer engine: it has none when QUIRK_TIMER_PER_INSTRUCTION is true (R104). -/
def State.freeTick (s : State) : State :=
  if s.params.quirkTimerPerInstruction then s else s.timerTick

/-- The press of k with the single-key latch: the most-recent key is released first (R108). -/
def State.press (s : State) (k : Nibble) : State :=
  let released := match s.last with
    | some j => s.setPressed j false
    | none => s
  { released.setPressed k true with last := some k }

/-- KeyDown(k) (R108). While FX0A waits it also completes the instruction (spec/45_keypad_timer.md R93), after which the tick
that QUIRK_TIMER_PER_INSTRUCTION owes for it follows. -/
def State.keyDown (s : State) (k : Nibble) : State :=
  match s.run with
  | .waitKey x => ({ (s.press k).writeV x (BitVec.ofNat 8 k.toNat) with run := .running }).quirkTick
  | .running => s.press k
  | .faulted _ _ => s
  | .quit => s

/-- KeyUp(k) (R109): `last` stays. -/
def State.keyUp (s : State) (k : Nibble) : State := s.setPressed k false

/-- Quit (R112): nothing else changes. -/
def State.quitNow (s : State) : State := { s with run := .quit }

end Sys2Proof.Machine
end

