-- ==== Sys2Proof/Machine/Flags.lean ====
section
/-! DEFINITION. The flag results and the write of VF (spec/10_state.md R16). A flag is computed from the operands as they were
before the instruction; `setVf` is the last write of an instruction (spec/40_dispatcher.md R52). -/

namespace Sys2Proof.Machine

/-- set_vf(flag): V[0xF] = flag ? 1 : 0 (R16). -/
def State.setVf (s : State) (flag : Bool) : State := s.writeV vf (if flag then 1#8 else 0#8)

/-- 8XY4: the exact sum exceeds 0xFF (spec/42_alu.md R73). -/
def carryFlag (a b : Byte) : Bool := decide (0xFF < a.toNat + b.toNat)

/-- 8XY5 and 8XY7: the minuend is strictly greater than the subtrahend (R74, R76). -/
def noBorrowFlag (minuend subtrahend : Byte) : Bool := decide (subtrahend.toNat < minuend.toNat)

/-- 8XY6: the bit shifted out, bit 0 (R75). -/
def shiftOutRight (a : Byte) : Bool := decide (a.toNat % 2 = 1)

/-- 8XYE: the bit shifted out, bit 7 (R77). -/
def shiftOutLeft (a : Byte) : Bool := decide (a.toNat / 128 % 2 = 1)

/-- FX1E: the exact sum exceeds 0xFFFF (spec/43_index_memory.md R80). -/
def indexOverflow (i : Word) (b : Byte) : Bool := decide (0xFFFF < i.toNat + b.toNat)

/-- DXYN: some lit sprite bit falls on a pixel that is on (spec/44_display.md R86). -/
def collisionFlag (fb : Framebuffer) (sprite : List Byte) (sx sy : Nat) : Bool :=
  (litPixels sprite sx sy).any fun p => Framebuffer.pixel fb p.1 p.2

end Sys2Proof.Machine
end

