-- ==== Sys2Proof/Machine/Operands.lean ====
section
/-! DEFINITION. The operand forms (spec/30_encoding.md R44; spec/43_index_memory.md): zero-extended addresses, the low nibble
of a register, memory at I plus an offset, the block of registers V0 to Vx, the BCD digits and the RND draw. -/

namespace Sys2Proof.Machine

/-- zext_16(nnn) (R44). -/
def addr16 (nnn : Addr12) : Word := BitVec.ofNat 16 nnn.toNat

/-- BNNN's target: (V[0] + nnn) & 0xFFF (R65). -/
def jumpOffset (v0 : Byte) (nnn : Addr12) : Word := BitVec.ofNat 16 ((v0.toNat + nnn.toNat) % 0x1000)

/-- V[x] & 0x0F: the key of EX9E and EXA1 and the digit of FX29 (R91, R92, R81). -/
def lowNibble (b : Byte) : Nibble := BitVec.ofNat 4 (b.toNat % 16)

/-- The address of the glyph of a digit: 0x050 + 5 d (R81, R90). -/
def glyphAddr (d : Nibble) : Word := BitVec.ofNat 16 (Config.fontBase + d.toNat * 5)

/-- Hundreds, tens and ones of a byte (R82). -/
def bcdDigits (b : Byte) : List Byte :=
  [BitVec.ofNat 8 (b.toNat / 100), BitVec.ofNat 8 (b.toNat / 10 % 10), BitVec.ofNat 8 (b.toNat % 10)]

/-- How many registers V[0] to V[x] are (R83, R84). -/
def blockLen (x : Nibble) : Nat := x.toNat + 1

/-- V[0] to V[x] in order (R83). -/
def State.readBlock (s : State) (x : Nibble) : List Byte :=
  (List.range (blockLen x)).map fun k => s.readV (BitVec.ofNat 4 k)

/-- V[0] to V[x] <- the bytes at I, I + 1, ... (R84). -/
def State.loadBlock (s : State) (x : Nibble) : State :=
  (List.range (blockLen x)).foldl (fun t k => t.writeV (BitVec.ofNat 4 k) (s.readMem (s.i.toNat + k))) s

/-- The sprite: n bytes from I, all read before any pixel changes (R86). -/
def State.readSprite (s : State) (n : Nibble) : List Byte := Memory.readBytes s.mem s.i.toNat n.toNat

/-- draw_rnd(): the byte of this draw (R78). -/
def State.rndByte (s : State) : Byte := Config.rnd s.draws

/-- One draw has been made. -/
def State.countDraw (s : State) : State := { s with draws := s.draws + 1 }

end Sys2Proof.Machine
end

