-- ==== Sys2Proof/Machine/Alu.lean ====
section
/-! DEFINITION. The ALU and the register moves (spec/42_alu.md R66 to R78). Operands are read from the state at the boundary,
the destination is written next and VF last (spec/40_dispatcher.md R52). -/

namespace Sys2Proof.Machine

/-! ### Results: computed exactly and then reduced modulo 256 (R66) -/

def addBytes (a b : Byte) : Byte := BitVec.ofNat 8 ((a.toNat + b.toNat) % 256)
def subBytes (a b : Byte) : Byte := BitVec.ofNat 8 ((a.toNat + 256 - b.toNat) % 256)
def shiftRight (a : Byte) : Byte := BitVec.ofNat 8 (a.toNat / 2)
def shiftLeft (a : Byte) : Byte := BitVec.ofNat 8 (a.toNat * 2 % 256)

/-- V[x] <- r, then VF <- flag: the shape of every flag-setting row of op 0x8 (R52). -/
def State.writeResult (s : State) (x : Nibble) (r : Byte) (flag : Bool) : State := (s.writeV x r).setVf flag

/-! ### Meanings -/

/-- 6XNN LD Vx, NN (R67). -/
def execLdImm (x : Nibble) (nn : Byte) (s : State) : Answer := .next (s.advance.writeV x nn)

/-- 7XNN ADD Vx, NN (R68): no VF write. -/
def execAddImm (x : Nibble) (nn : Byte) (s : State) : Answer := .next (s.advance.writeV x (addBytes (s.readV x) nn))

/-- 8XY0 LD Vx, Vy (R69). -/
def execLdReg (x y : Nibble) (s : State) : Answer := .next (s.advance.writeV x (s.readV y))

/-- 8XY1 OR (R70): VF unchanged unless it is the destination. -/
def execOrReg (x y : Nibble) (s : State) : Answer := .next (s.advance.writeV x (s.readV x ||| s.readV y))

/-- 8XY2 AND (R71). -/
def execAndReg (x y : Nibble) (s : State) : Answer := .next (s.advance.writeV x (s.readV x &&& s.readV y))

/-- 8XY3 XOR (R72). -/
def execXorReg (x y : Nibble) (s : State) : Answer := .next (s.advance.writeV x (s.readV x ^^^ s.readV y))

/-- 8XY4 ADD Vx, Vy (R73). -/
def execAddReg (x y : Nibble) (s : State) : Answer :=
  .next (s.advance.writeResult x (addBytes (s.readV x) (s.readV y)) (carryFlag (s.readV x) (s.readV y)))

/-- 8XY5 SUB (R74). -/
def execSubReg (x y : Nibble) (s : State) : Answer :=
  .next (s.advance.writeResult x (subBytes (s.readV x) (s.readV y)) (noBorrowFlag (s.readV x) (s.readV y)))

/-- 8XY6 SHR (R75): the Y field is ignored. -/
def execShr (x _y : Nibble) (s : State) : Answer :=
  .next (s.advance.writeResult x (shiftRight (s.readV x)) (shiftOutRight (s.readV x)))

/-- 8XY7 SUBN (R76). -/
def execSubnReg (x y : Nibble) (s : State) : Answer :=
  .next (s.advance.writeResult x (subBytes (s.readV y) (s.readV x)) (noBorrowFlag (s.readV y) (s.readV x)))

/-- 8XYE SHL (R77): the Y field is ignored. -/
def execShl (x _y : Nibble) (s : State) : Answer :=
  .next (s.advance.writeResult x (shiftLeft (s.readV x)) (shiftOutLeft (s.readV x)))

/-- CXNN RND (R78): one draw, a free value (notes/assumptions/2.md). -/
def execRnd (x : Nibble) (nn : Byte) (s : State) : Answer :=
  .next (s.advance.countDraw.writeV x (s.rndByte &&& nn))

end Sys2Proof.Machine
end

