-- ==== Sys2Proof/Machine/Display.lean ====
section
/-! DEFINITION. CLS and the sprite compositor (spec/44_display.md R85 to R88). -/

namespace Sys2Proof.Machine

/-- 00E0 CLS (R85). -/
def execCls (s : State) : Answer := .next { s.advance with fb := blankScreen }

/-- The draw of a sprite that has been read, at the origin (cx mod 64, cy mod 32), and the collision flag last (R86). -/
def State.compose (s : State) (sprite : List Byte) (cx cy : Byte) : State :=
  ({ s with fb := drawSprite s.fb sprite (cx.toNat % Config.displayW) (cy.toNat % Config.displayH) }).setVf
    (collisionFlag s.fb sprite (cx.toNat % Config.displayW) (cy.toNat % Config.displayH))

/-- DXYN DRW (R86, R87): the range of all n rows is checked first, drawn or not. -/
def execDrw (x y n : Nibble) (s : State) : Answer :=
  match rangeFault s.i.toNat n.toNat with
  | some a => .next (s.enterFault .memoryFault (some a))
  | none => .next (s.advance.compose (s.readSprite n) (s.readV x) (s.readV y))

end Sys2Proof.Machine
end

