-- ==== Sys2Proof/Machine/Flow.lean ====
section
/-! DEFINITION. Control transfer (spec/41_flow.md R58 to R65). A meaning starts from the state at the boundary, where PC is the
address a of its instruction; `advance` is the fetch's PC advance to a + 2. -/

namespace Sys2Proof.Machine

/-- 00EE RET (R58): StackUnderflow(a) when S is empty. -/
def execRet (s : State) : Answer :=
  match s.advance.pop with
  | some (w, t) => .next (t.jump w)
  | none => .next (s.enterFault .stackUnderflow none)

/-- 1NNN JP (R59). -/
def execJp (nnn : Addr12) (s : State) : Answer := .next (s.advance.jump (addr16 nnn))

/-- 2NNN CALL (R60): pushes a + 2; StackOverflow(a) when S is full. -/
def execCall (nnn : Addr12) (s : State) : Answer :=
  match s.advance.push s.advance.pc with
  | some t => .next (t.jump (addr16 nnn))
  | none => .next (s.enterFault .stackOverflow none)

/-- 3XNN SE Vx, NN (R61). -/
def execSeImm (x : Nibble) (nn : Byte) (s : State) : Answer :=
  .next (s.advance.skipIf (decide (s.readV x = nn)))

/-- 4XNN SNE Vx, NN (R62). -/
def execSneImm (x : Nibble) (nn : Byte) (s : State) : Answer :=
  .next (s.advance.skipIf (decide (s.readV x ≠ nn)))

/-- 5XY0 SE Vx, Vy (R63). -/
def execSeReg (x y : Nibble) (s : State) : Answer :=
  .next (s.advance.skipIf (decide (s.readV x = s.readV y)))

/-- 9XY0 SNE Vx, Vy (R64). -/
def execSneReg (x y : Nibble) (s : State) : Answer :=
  .next (s.advance.skipIf (decide (s.readV x ≠ s.readV y)))

/-- BNNN JP V0, NNN (R65). -/
def execJpV0 (nnn : Addr12) (s : State) : Answer :=
  .next (s.advance.jump (jumpOffset (s.readV 0#4) nnn))

end Sys2Proof.Machine
end

