-- ==== Sys2Proof/Machine/Index.lean ====
section
/-! DEFINITION. The index register and the memory block instructions (spec/43_index_memory.md R79 to R84). I is changed by no
access; a multi-byte access checks its whole range first (spec/20_memory.md R30). -/

namespace Sys2Proof.Machine

/-- ANNN LD I, NNN (R79). -/
def execLdI (nnn : Addr12) (s : State) : Answer := .next (s.advance.writeI (addr16 nnn))

/-- FX1E ADD I, Vx (R80): VF is 1 only on 16-bit overflow of I, and is written last. -/
def execAddI (x : Nibble) (s : State) : Answer :=
  .next ((s.advance.writeI (BitVec.ofNat 16 ((s.i.toNat + (s.readV x).toNat) % 0x10000))).setVf
    (indexOverflow s.i (s.readV x)))

/-- FX29 LD F, Vx (R81). -/
def execLdF (x : Nibble) (s : State) : Answer := .next (s.advance.writeI (glyphAddr (lowNibble (s.readV x))))

/-- FX33 LD B, Vx (R82). -/
def execLdB (x : Nibble) (s : State) : Answer :=
  match rangeFault s.i.toNat 3 with
  | some a => .next (s.enterFault .memoryFault (some a))
  | none => .next (s.advance.storeBytes s.i.toNat (bcdDigits (s.readV x)))

/-- FX55 LD [I], Vx (R83). -/
def execLdMemV (x : Nibble) (s : State) : Answer :=
  match rangeFault s.i.toNat (blockLen x) with
  | some a => .next (s.enterFault .memoryFault (some a))
  | none => .next (s.advance.storeBytes s.i.toNat (s.readBlock x))

/-- FX65 LD Vx, [I] (R84). -/
def execLdVMem (x : Nibble) (s : State) : Answer :=
  match rangeFault s.i.toNat (blockLen x) with
  | some a => .next (s.enterFault .memoryFault (some a))
  | none => .next (s.advance.loadBlock x)

end Sys2Proof.Machine
end

