-- ==== Sys2Proof/Machine/KeypadTimer.lean ====
section
/-! DEFINITION. The keypad and timer instructions (spec/45_keypad_timer.md R91 to R96). -/

namespace Sys2Proof.Machine

/-- EX9E SKP Vx (R91). -/
def execSkp (x : Nibble) (s : State) : Answer :=
  .next (s.advance.skipIf (s.isPressed (lowNibble (s.readV x))))

/-- EXA1 SKNP Vx (R92). -/
def execSknp (x : Nibble) (s : State) : Answer :=
  .next (s.advance.skipIf (!s.isPressed (lowNibble (s.readV x))))

/-- FX07 LD Vx, DT (R94). -/
def execLdVDt (x : Nibble) (s : State) : Answer := .next (s.advance.writeV x s.dt)

/-- FX0A LD Vx, K (R93): the execute part. A key-down event completes it (`keyDown` in Machine/Agents.lean). -/
def execLdK (x : Nibble) (s : State) : Answer := .next { s.advance with run := .waitKey x }

/-- FX15 LD DT, Vx (R95). -/
def execLdDtV (x : Nibble) (s : State) : Answer := .next (s.advance.writeDt (s.readV x))

/-- FX18 LD ST, Vx (R96). -/
def execLdStV (x : Nibble) (s : State) : Answer := .next (s.advance.writeSt (s.readV x))

end Sys2Proof.Machine
end

