-- ==== Sys2Proof/Machine/Cycle.lean ====
section
/-! DEFINITION. What happens at a boundary (spec/40_dispatcher.md R50, R56; spec/60_exceptions.md R104): the CPU step around
`exec`, the input that arrives next, and the step of the agent it enables. -/

namespace Sys2Proof.Machine

/-- The tick of QUIRK_TIMER_PER_INSTRUCTION after a CPU step that answered a next state (R104). -/
def afterCpu : Answer → Answer
  | .next s => .next s.quirkTick
  | .fault f => .fault f
  | .refused r => .refused r

/-- One CPU step (R50): fetch, decode and execute one instruction. A fetch at PC >= 0xFFF raises MemoryFault(PC) (R32); an
unknown word is reported and passed over (R55). -/
def cpuStep (s : State) : Answer :=
  match s.fetch16 with
  | none => .next (s.enterFault .memoryFault (some s.pc.toNat))
  | some w =>
    match decodeWord w with
    | .ok i => afterCpu (exec i s)
    | .error _ => afterCpu (.next (s.reportUnknown w))

/-- The n-th free round of events: any events in any order, but with a timer tick and a later cycle strobe among them. Every
endless order of events in which ticks and cycle strobes come again and again is a sequence of such rounds, and no other is: the
weak fairness of R104 (notes/assumptions/14.md). -/
def arrivalRound (n : Nat) : List Input :=
  Config.beforeTick n ++ .timerTick :: (Config.beforeCycle n ++ [.cycle])

/-- The events on their way at this boundary, in their order of arrival: `inputs`, and the next free round when these have run
out (R104, R110; notes/assumptions/1.md). Never empty. -/
def State.pending (s : State) : List Input :=
  match s.inputs with
  | [] => arrivalRound s.rounds
  | e :: rest => e :: rest

/-- The event that moves at this boundary: the first of those on their way. -/
def State.nextInput (s : State) : Input := s.pending.headD .cycle

/-- That event has been taken from the port, and counted if it opened a free round; nothing else has changed. -/
def State.dropInput (s : State) : State :=
  { s with
    inputs := s.pending.tail
    rounds := match s.inputs with
      | [] => s.rounds + 1
      | _ :: _ => s.rounds }

/-- The step that an event enables while the block is neither Faulted nor Quit (R104). A cycle strobe finds the CPU disabled
while FX0A waits, and then nothing moves (R56). -/
def agentStep (e : Input) (s : State) : Answer :=
  match e with
  | .cycle =>
    match s.run with
    | .running => cpuStep s
    | .waitKey _ => .next s
    | .faulted kind addr => .fault (.endedFaulted kind addr)
    | .quit => .fault .endedQuit
  | .timerTick => .next s.freeTick
  | .keyDown k => .next (s.keyDown k)
  | .keyUp k => .next (s.keyUp k)
  | .quit => .next s.quitNow

/-- One step of the block (R104): the agent enabled by the next event moves; Faulted and Quit are final and no agent moves
(R56, R98, R112). -/
def boundaryStep (s : State) : Answer :=
  match s.run with
  | .faulted kind addr => .fault (.endedFaulted kind addr)
  | .quit => .fault .endedQuit
  | .running => agentStep s.nextInput s.dropInput
  | .waitKey _ => agentStep s.nextInput s.dropInput

/-- The inputs with a cycle strobe first: unchanged where the next event is one already. -/
def cycleFirst (inputs : List Input) : List Input :=
  match inputs with
  | [] => [.cycle]
  | .cycle :: rest => .cycle :: rest
  | e :: rest => .cycle :: e :: rest

/-- A word placed big-endian at the program counter (R31). -/
def State.placeWord (s : State) (w : Word) : State := s.storeBytes s.pc.toNat [highByte w, lowByte w]

end Sys2Proof.Machine
end

