-- ==== Sys2Proof/Machine/Step.lean ====
section
/-! DEFINITION. The step of the block, and the placing of a word where it fetches next. -/

namespace Sys2Proof.Machine

/-- One step (spec/60_exceptions.md R104). -/
def step (s : State) : Host.Outcome State Fault Refusal := boundaryStep s

/-- `s` with the opcode-table word stored where the next step fetches. The fetch also needs run = Running and the cycle
strobe to come next, so these are set where they are not so already. -/
def State.withFetchWord (s : State) (nbits w : Nat) : State :=
  { s.placeWord (BitVec.ofNat 16 (w % 2 ^ nbits)) with
    run := .running
    inputs := cycleFirst s.inputs }

end Sys2Proof.Machine
end

