-- ==== Sys2Proof/WellFormed.lean ====
section
/-! DEFINITION. What a well-formed block and program image are. An instruction needs no check of its own: each operand of
`Instr` has exactly the width of its field (spec/30_encoding.md R43), so every term of `Instr` is well-formed. What can be
ill-formed is a parameter (spec/00_scope.md R6: STACK_DEPTH is at least 16) and a program image
(spec/70_reset_and_hazards.md R117). -/

namespace Sys2Proof

/-- STACK_DEPTH is at least 16 (R6, R19). -/
def Params.wellFormed (p : Params) : Bool := decide (16 ≤ p.stackDepth)

/-- The program image fits between 0x200 and the end of memory (R117, R118). -/
def programFits (program : List Byte) : Bool := decide (Config.progBase + program.length ≤ Config.memSize)

end Sys2Proof
end

