-- ==== Sys2Proof/Machine/Ports.lean ====
section
/-! DEFINITION. The host interface (spec/60_exceptions.md R111, R113; spec/70_reset_and_hazards.md R117): load, which is the
block's only reset, the output ports, and the host adapter's key table. -/

namespace Sys2Proof.Machine

/-- load(program) (R117): the whole state anew, with the program at 0x200, or ProgramTooLarge and no state. The parameters are
fixed when the block is built, the inputs on their way are the host's, and a free round or a draw that has been taken is not
taken again, so these four are kept from the state before. -/
def load (program : List Byte) (s : State) : Answer :=
  if programFits program then
    .next { State.reset with
      mem := Memory.writeBytes State.reset.mem Config.progBase program
      params := s.params
      inputs := s.inputs
      rounds := s.rounds
      draws := s.draws }
  else .fault (.programTooLarge program.length)

/-- The output ports (R113). -/
structure Outputs where
  fb : Framebuffer
  tone : Bool
  diag : List Diag
  status : Run
deriving DecidableEq, Repr

/-- What the ports show at a boundary (R89, R106, R98, R99, R23). -/
def State.outputs (s : State) : Outputs := { fb := s.fb, tone := s.tone, diag := s.diag, status := s.run }

/-- The host adapter's table (R111): the hex code of a host key; a key outside the table produces no event (D22). -/
def hostKeyCode (key : Char) : Option Nibble :=
  match key with
  | '1' => some 0x1#4 | '2' => some 0x2#4 | '3' => some 0x3#4 | '4' => some 0xC#4
  | 'Q' => some 0x4#4 | 'W' => some 0x5#4 | 'E' => some 0x6#4 | 'R' => some 0xD#4
  | 'A' => some 0x7#4 | 'S' => some 0x8#4 | 'D' => some 0x9#4 | 'F' => some 0xE#4
  | 'Z' => some 0xA#4 | 'X' => some 0x0#4 | 'C' => some 0xB#4 | 'V' => some 0xF#4
  | _ => none

end Sys2Proof.Machine
end

