-- ==== Sys2Proof/Safety.lean ====
section
/-! DEFINITION. The terms that claims are stated in: the invariant of the block, the frame of a step, the words of a run that
has not ended, and the instructions that write VF as a flag. -/

namespace Sys2Proof.Machine

/-- The block has not ended: run is Running or WaitKey(x) (spec/60_exceptions.md R104). -/
def State.live (s : State) : Prop := s.run = .running ∨ ∃ x, s.run = .waitKey x

/-- What every agent keeps, from every state that has it:
memory is in canonical form and inside the address space (spec/20_memory.md R28);
STACK_DEPTH is at least 16 and the stack is no deeper (spec/10_state.md R19);
a return address is at most 0x1000 and PC at most 0x1002, so PC never wraps (R18);
at most one key is pressed, the one in the most-recent slot (R22);
after a fatal fault PC is the address of the instruction that raised it (spec/60_exceptions.md R98). -/
structure Inv (s : State) : Prop where
  memory : Memory.wf s.mem
  depth : 16 ≤ s.params.stackDepth
  stackBound : s.stack.length ≤ s.params.stackDepth
  returns : ∀ w ∈ s.stack, w.toNat ≤ 0x1000
  pcBound : s.pc.toNat ≤ 0x1002
  latch : ∀ k, s.isPressed k = true → s.last = some k
  faultPc : ∀ kind addr, s.run = .faulted kind addr → s.pc = addr

/-- The pieces of state beside V and PC. -/
inductive Part where
  | index | stack | delayTimer | soundTimer | screen | memory | pressed | last | run | tone | diag | params | inputs
  | rounds | draws
deriving DecidableEq, Repr

/-- The piece reads in `t` as it did in `s`: every byte of memory, every pixel and every key through the model's own read. -/
def Part.Kept (s t : State) : Part → Prop
  | .index => t.i = s.i
  | .stack => t.stack = s.stack
  | .delayTimer => t.dt = s.dt
  | .soundTimer => t.st = s.st
  | .screen => ∀ x y, t.pixel x y = s.pixel x y
  | .memory => ∀ a, t.readMem a = s.readMem a
  | .pressed => ∀ k, t.isPressed k = s.isPressed k
  | .last => t.last = s.last
  | .run => t.run = s.run
  | .tone => t.tone = s.tone
  | .diag => t.diag = s.diag
  | .params => t.params = s.params
  | .inputs => t.inputs = s.inputs
  | .rounds => t.rounds = s.rounds
  | .draws => t.draws = s.draws

/-- The frame of a step from `s` to `t` (spec/40_dispatcher.md R53): every register but `regs` and every piece of state but
`parts` is unchanged. PC is left to the statement that uses it. -/
def Frame (regs : List Nibble) (parts : List Part) (s t : State) : Prop :=
  (∀ r, r ∉ regs → t.readV r = s.readV r) ∧ ∀ p, p ∉ parts → Part.Kept s t p

/-- The register an instruction names as its destination, if it names one (spec/10_state.md R15). -/
def destReg : Instr → Option Nibble
  | .ldImm x _ | .addImm x _ | .ldReg x _ | .orReg x _ | .andReg x _ | .xorReg x _ | .addReg x _ | .subReg x _ | .shr x _
  | .subnReg x _ | .shl x _ | .rnd x _ | .ldVDt x => some x
  | .ldVMem x => some x
  | .cls | .ret | .jp _ | .call _ | .seImm _ _ | .sneImm _ _ | .seReg _ _ | .sneReg _ _ | .ldI _ | .jpV0 _ | .drw _ _ _
  | .skp _ | .sknp _ | .ldK _ | .ldDtV _ | .ldStV _ | .addI _ | .ldF _ | .ldB _ | .ldMemV _ => none

/-- The seven instructions that write VF as a flag (R16; spec/70_reset_and_hazards.md R122). -/
def writesFlag : Instr → Bool
  | .addReg _ _ | .subReg _ _ | .shr _ _ | .subnReg _ _ | .shl _ _ | .addI _ | .drw _ _ _ => true
  | .cls | .ret | .jp _ | .call _ | .seImm _ _ | .sneImm _ _ | .seReg _ _ | .ldImm _ _ | .addImm _ _ | .ldReg _ _
  | .orReg _ _ | .andReg _ _ | .xorReg _ _ | .sneReg _ _ | .ldI _ | .jpV0 _ | .rnd _ _ | .skp _ | .sknp _ | .ldVDt _
  | .ldK _ | .ldDtV _ | .ldStV _ | .ldF _ | .ldB _ | .ldMemV _ | .ldVMem _ => false

/-- The jumps, CALL, RET and the skips: the instructions whose PC is not simply a + 2 (spec/40_dispatcher.md R54). -/
def isTransfer : Instr → Bool
  | .ret | .jp _ | .call _ | .seImm _ _ | .sneImm _ _ | .seReg _ _ | .sneReg _ _ | .jpV0 _ | .skp _ | .sknp _ => true
  | .cls | .ldImm _ _ | .addImm _ _ | .ldReg _ _ | .orReg _ _ | .andReg _ _ | .xorReg _ _ | .addReg _ _ | .subReg _ _
  | .shr _ _ | .subnReg _ _ | .shl _ _ | .ldI _ | .rnd _ _ | .drw _ _ _ | .ldVDt _ | .ldK _ | .ldDtV _ | .ldStV _
  | .addI _ | .ldF _ | .ldB _ | .ldMemV _ | .ldVMem _ => false

/-- The bit of the sprite that R86 draws at column cx, row cy: bit 7 - (cx - sx) of the byte in row cy - sy, for the origin
sx = V[x] mod 64, sy = V[y] mod 32, and none outside the rectangle of eight columns and n rows. -/
def spriteBit (s : State) (x y n : Nibble) (cx cy : Nat) : Prop :=
  (s.readV x).toNat % 64 ≤ cx ∧ cx < (s.readV x).toNat % 64 + 8 ∧
    (s.readV y).toNat % 32 ≤ cy ∧ cy < (s.readV y).toNat % 32 + n.toNat ∧
    (s.readMem (s.i.toNat + (cy - (s.readV y).toNat % 32))).getLsbD (7 - (cx - (s.readV x).toNat % 64)) = true

/-- The byte at `a` once FX55 has stored V[0] to V[x] from I on (spec/43_index_memory.md R83). -/
def blockByte (s : State) (x : Nibble) (a : Nat) : Byte :=
  if s.i.toNat ≤ a ∧ a ≤ s.i.toNat + x.toNat then s.readV (BitVec.ofNat 4 (a - s.i.toNat)) else s.readMem a

/-- The byte at `a` once FX33 has stored the digits of V[x] from I on (spec/43_index_memory.md R82). -/
def bcdByte (s : State) (x : Nibble) (a : Nat) : Byte :=
  if a = s.i.toNat then BitVec.ofNat 8 ((s.readV x).toNat / 100)
  else if a = s.i.toNat + 1 then BitVec.ofNat 8 ((s.readV x).toNat / 10 % 10)
  else if a = s.i.toNat + 2 then BitVec.ofNat 8 ((s.readV x).toNat % 10)
  else s.readMem a

/-- The state after n steps, if each of them answers a next state. -/
def runFor : Nat → State → Option State
  | 0, s => some s
  | n + 1, s =>
    match step s with
    | .next t => runFor n t
    | .fault _ => none
    | .refused _ => none

/-- Ticks of the timer engine, one after the other (spec/60_exceptions.md R105). -/
def ticks : Nat → State → State
  | 0, s => s
  | n + 1, s => ticks n s.timerTick

end Sys2Proof.Machine
end

