-- ==== Sys2Proof/Certificates/Slice0/Obligations.lean ====
section
/-! DEFINITION. The statements for the provers. Each says in its docstring which rule of spec/ it formalises. `Frame regs parts
s t` says that every register but `regs` and every piece of state but `parts` is unchanged (memory, pixels and keys through the
model's own reads); where PC goes is said beside it. `s.nextInput` is the event that moves at this boundary and `s.dropInput` the
state with that event taken, the model's form of the input ports (notes/assumptions/1.md). -/

open Sys2Proof Sys2Proof.Machine

/-! ### Encoding -/

/-- R42, R43, R45: two bytes encode an instruction, and decoding them gives it back with every operand at every value of its
field, and the bytes after it. -/
def Obligations.DecodeOfEncodeIsIdentity : Prop :=
  ∀ (i : Instr) (rest : List Byte), decode (encode i ++ rest) = .ok (i, rest)

/-- R43, R46: no bit of a known word is lost, the ignored Y field of SHR and SHL included. -/
def Obligations.EncodeOfDecodeIsIdentity : Prop :=
  ∀ (w : Word) (i : Instr), decodeWord w = .ok i → encodeWord i = w

/-- R45: the word w selects the row of the instruction j exactly when (w & mask) = match. -/
def Obligations.DecoderSelectsRowByMaskAndMatch : Prop :=
  ∀ (w : Word) (j : Instr), w &&& rowMask j = rowMatch j ↔
    ∃ i, decodeWord w = .ok i ∧ rowMask i = rowMask j ∧ rowMatch i = rowMatch j

/-- R47, R48: every word is either one of the instructions, or unknown; it is unknown exactly when it matches no row. -/
def Obligations.UnknownExactlyWhenNoRowMatches : Prop :=
  ∀ w : Word, ((∃ i, decodeWord w = .ok i) ∨ decodeWord w = .error (.unknownOpcode w)) ∧
    (decodeWord w = .error (.unknownOpcode w) ↔ ∀ j, w &&& rowMask j ≠ rowMatch j)

/-- R46, R47: words written out bit by bit from the map, one of each op, and an unknown word of each op that has one. -/
def Obligations.SampleWordsDecode : Prop :=
  decodeWord 0b0000000011100000#16 = .ok .cls ∧
  decodeWord 0b0001101010111100#16 = .ok (.jp 0xABC#12) ∧
  decodeWord 0b0010101010111100#16 = .ok (.call 0xABC#12) ∧
  decodeWord 0b0011101001000010#16 = .ok (.seImm 0xA#4 0x42#8) ∧
  decodeWord 0b0100101001000010#16 = .ok (.sneImm 0xA#4 0x42#8) ∧
  decodeWord 0b0101000100100000#16 = .ok (.seReg 1#4 2#4) ∧
  decodeWord 0b0110101001011011#16 = .ok (.ldImm 0xA#4 0x5B#8) ∧
  decodeWord 0b0111101011111111#16 = .ok (.addImm 0xA#4 0xFF#8) ∧
  decodeWord 0b1000000100101110#16 = .ok (.shl 1#4 2#4) ∧
  decodeWord 0b1001000100100000#16 = .ok (.sneReg 1#4 2#4) ∧
  decodeWord 0b1010000100100011#16 = .ok (.ldI 0x123#12) ∧
  decodeWord 0b1011001000000001#16 = .ok (.jpV0 0x201#12) ∧
  decodeWord 0b1100001100001111#16 = .ok (.rnd 3#4 0x0F#8) ∧
  decodeWord 0b1101000100100011#16 = .ok (.drw 1#4 2#4 3#4) ∧
  decodeWord 0b1110000110100001#16 = .ok (.sknp 1#4) ∧
  decodeWord 0b1111001001010101#16 = .ok (.ldMemV 2#4) ∧
  decodeWord 0b0000000100100011#16 = .error (.unknownOpcode 0x0123#16) ∧
  decodeWord 0b0101000100100001#16 = .error (.unknownOpcode 0x5121#16) ∧
  decodeWord 0b1000000100101000#16 = .error (.unknownOpcode 0x8128#16) ∧
  decodeWord 0b1001000100100001#16 = .error (.unknownOpcode 0x9121#16) ∧
  decodeWord 0b1110000110100000#16 = .error (.unknownOpcode 0xE1A0#16) ∧
  decodeWord 0b1111000011111111#16 = .error (.unknownOpcode 0xF0FF#16)

/-! ### The step -/

/-- R50: while run = Running and the cycle strobe is the next input, a step fetches the big-endian word at PC, decodes it and
is `exec` of the instruction, from the state with the strobe taken (the model's form of the port, notes/assumptions/1.md). Around
it stands `afterCpu`: by default nothing, and with QUIRK_TIMER_PER_INSTRUCTION true the tick that follows the instruction, which
falls into the same step by the model's reading (notes/assumptions/5.md). -/
def Obligations.StepRunsTheDecodedInstruction : Prop :=
  ∀ (s : State) (i : Instr), s.run = .running → s.nextInput = .cycle → s.pc.toNat + 1 < 0x1000 →
    decode [s.readMem s.pc.toNat, s.readMem (s.pc.toNat + 1)] = .ok (i, []) →
    step s = afterCpu (exec i s.dropInput) ∧
      (s.params.quirkTimerPerInstruction = false → step s = exec i s.dropInput)

/-- What taking an input is: some event is always on its way; while `inputs` lists one it is the first of them, and otherwise it
opens the next free round; taking it changes nothing but `inputs` and the count of rounds. All of it is the model's form of the
input ports and of the free order of R104 (notes/assumptions/1.md). -/
def Obligations.AnInputIsTakenInOrder : Prop :=
  ∀ s : State, s.pending = s.nextInput :: s.dropInput.inputs ∧
    (∀ e rest, s.inputs = e :: rest →
      s.nextInput = e ∧ s.dropInput.inputs = rest ∧ s.dropInput.rounds = s.rounds) ∧
    (s.inputs = [] → s.pending = arrivalRound s.rounds ∧ s.dropInput.rounds = s.rounds + 1) ∧
    s.dropInput.pc = s.pc ∧ Frame [] [.inputs, .rounds] s s.dropInput

/-- R55, R47: executing an unknown word w at a appends UnknownOpcode(a, w) to diag and changes nothing else; PC is a + 2 and
run stays Running. That the step takes a cycle strobe from the inputs is the model's form of the port (notes/assumptions/1.md);
the tick of QUIRK_TIMER_PER_INSTRUCTION is `QuirkTicksOncePerInstruction`'s. -/
def Obligations.UnknownWordIsReportedAndSkipped : Prop :=
  ∀ (s : State) (w : Word), s.run = .running → s.nextInput = .cycle → s.params.quirkTimerPerInstruction = false →
    s.pc.toNat + 1 < 0x1000 → bigEndian (s.readMem s.pc.toNat) (s.readMem (s.pc.toNat + 1)) = w →
    (∀ j, w &&& rowMask j ≠ rowMatch j) →
    ∃ t, step s = .next t ∧ t.diag = s.diag ++ [.unknownOpcode s.pc w] ∧ t.pc = s.pc + 2#16 ∧ Frame [] [.diag] s.dropInput t

/-- R32: if a + 1 >= 0x1000 the fetch raises MemoryFault(a), and PC is left at a; R98: the fatal fault entry changes run and
diag and nothing else. That the step takes a cycle strobe from the inputs is the model's form of the port
(notes/assumptions/1.md). -/
def Obligations.FetchBeyondMemoryFaults : Prop :=
  ∀ s : State, s.run = .running → s.nextInput = .cycle → 0x1000 ≤ s.pc.toNat + 1 →
    ∃ t, step s = .next t ∧ t.run = .faulted .memoryFault s.pc ∧
      t.diag = s.diag ++ [.fault .memoryFault s.pc (some s.pc.toNat)] ∧ t.pc = s.pc ∧ Frame [] [.run, .diag] s.dropInput t

/-- R56: while run = WaitKey(x) the CPU takes no step: a cycle strobe changes nothing but that it is taken from the inputs (the
model's form of the port, notes/assumptions/1.md). -/
def Obligations.NoCpuStepWhileWaiting : Prop :=
  ∀ (s : State) (x : Nibble), s.run = .waitKey x → s.nextInput = .cycle → step s = .next s.dropInput

/-- R56, R98, R112: while run = Faulted or Quit nothing takes a step, whatever input is next. That the machine's step stops there,
under a name of its own, is the model's form of the spec's `stuck` (U11; notes/assumptions/7.md). -/
def Obligations.FaultedAndQuitAreFinal : Prop :=
  ∀ s : State, (∀ kind addr, s.run = .faulted kind addr → step s = .fault (.endedFaulted kind addr)) ∧
    (s.run = .quit → step s = .fault .endedQuit)

/-- From Running or WaitKey the machine's step answers a next state, whatever comes next. It is the model's choice that an event
that finds its agent disabled (a cycle strobe while FX0A waits, a free tick under the quirk) is a step in which the event is
taken and nothing moves (notes/assumptions/1.md). -/
def Obligations.LiveBlockSteps : Prop :=
  ∀ s : State, s.live → ∃ t, step s = .next t

/-- The fairness of R104 and D1: from every state that is Running or waiting, and for the timer tick as for the cycle strobe, the
machine, after fewer steps than there are events in `inputs` and the next free round, has ended or is at a boundary at which that
event is next. So the timer tick comes again and again in an endless run, and so does the cycle strobe. That it holds by the form
of the free rounds is the model's choice (notes/assumptions/14.md). -/
def Obligations.TicksAndStrobesComeAgain : Prop :=
  ∀ (s : State) (e : Input), s.live → e = .timerTick ∨ e = .cycle →
    ∃ n t, n < s.inputs.length + (arrivalRound s.rounds).length ∧ runFor n s = some t ∧ (¬ t.live ∨ t.nextInput = e)

/-- R107, R104, R105: the timers go on counting while FX0A waits. From every state with run = WaitKey(x), whatever events come, the
wait ends (a key or quit) or both timers reach 0 and the tone is paused, after finitely many steps: nothing but the fairness of
R104 is used, which holds by the form of the free rounds (notes/assumptions/14.md). -/
def Obligations.TimersRunOutDuringAWait : Prop :=
  ∀ (s : State) (x : Nibble), s.run = .waitKey x → s.params.quirkTimerPerInstruction = false →
    ∃ n t, runFor n s = some t ∧ (t.run ≠ .waitKey x ∨ (t.dt = 0#8 ∧ t.st = 0#8 ∧ t.tone = false))

/-- Every instruction of the table answers a next state from every state (R98: a fatal fault is one too, with run = Faulted);
none is refused. -/
def Obligations.EveryInstructionAnswersANextState : Prop :=
  ∀ (i : Instr) (s : State), ∃ t, exec i s = .next t

/-! ### Control transfer -/

/-- R59: PC <- zext_16(nnn). -/
def Obligations.JumpGoesToTarget : Prop :=
  ∀ (nnn : Addr12) (s : State), ∃ t, exec (.jp nnn) s = .next t ∧ t.pc.toNat = nnn.toNat ∧ Frame [] [] s t

/-- R65: PC <- (V[0] + nnn) & 0xFFF. -/
def Obligations.JumpWithOffsetWrapsAtTwelveBits : Prop :=
  ∀ (nnn : Addr12) (s : State), ∃ t, exec (.jpV0 nnn) s = .next t ∧
    t.pc.toNat = ((s.readV 0#4).toNat + nnn.toNat) % 4096 ∧ Frame [] [] s t

/-- R60: below STACK_DEPTH entries, CALL pushes a + 2 and goes to nnn; R98: at STACK_DEPTH it raises StackOverflow(a) and
leaves PC and S. -/
def Obligations.CallPushesReturnAddressOrOverflows : Prop :=
  ∀ (nnn : Addr12) (s : State),
    (s.stack.length < s.params.stackDepth → ∃ t, exec (.call nnn) s = .next t ∧
      t.stack = s.stack ++ [s.pc + 2#16] ∧ t.pc.toNat = nnn.toNat ∧ Frame [] [.stack] s t) ∧
    (s.params.stackDepth ≤ s.stack.length → ∃ t, exec (.call nnn) s = .next t ∧
      t.run = .faulted .stackOverflow s.pc ∧ t.diag = s.diag ++ [.fault .stackOverflow s.pc none] ∧
      t.pc = s.pc ∧ Frame [] [.run, .diag] s t)

/-- R58: RET pops the newest entry into PC; with S empty it raises StackUnderflow(a), and (R98) nothing but run and diag
changes. -/
def Obligations.ReturnPopsNewestEntryOrUnderflows : Prop :=
  ∀ s : State,
    (∀ ws w, s.stack = ws ++ [w] → ∃ t, exec .ret s = .next t ∧ t.pc = w ∧ t.stack = ws ∧ Frame [] [.stack] s t) ∧
    (s.stack = [] → ∃ t, exec .ret s = .next t ∧ t.run = .faulted .stackUnderflow s.pc ∧
      t.diag = s.diag ++ [.fault .stackUnderflow s.pc none] ∧ t.pc = s.pc ∧ Frame [] [.run, .diag] s t)

/-- R58, R60: a CALL that does not fault, then RET, comes back to the instruction after the CALL with S as it was. -/
def Obligations.CallThenReturnComesBack : Prop :=
  ∀ (nnn : Addr12) (s : State), s.stack.length < s.params.stackDepth →
    ∃ t u, exec (.call nnn) s = .next t ∧ exec .ret t = .next u ∧ u.pc = s.pc + 2#16 ∧ u.stack = s.stack ∧
      Frame [] [] s u

/-- R61 to R64: a skip whose condition holds leaves PC at a + 4, and otherwise at a + 2; nothing else changes. -/
def Obligations.CompareSkips : Prop :=
  ∀ (x y : Nibble) (nn : Byte) (s : State),
    (∃ t, exec (.seImm x nn) s = .next t ∧ t.pc = (if s.readV x = nn then s.pc + 4#16 else s.pc + 2#16) ∧
      Frame [] [] s t) ∧
    (∃ t, exec (.sneImm x nn) s = .next t ∧ t.pc = (if s.readV x = nn then s.pc + 2#16 else s.pc + 4#16) ∧
      Frame [] [] s t) ∧
    (∃ t, exec (.seReg x y) s = .next t ∧ t.pc = (if s.readV x = s.readV y then s.pc + 4#16 else s.pc + 2#16) ∧
      Frame [] [] s t) ∧
    (∃ t, exec (.sneReg x y) s = .next t ∧ t.pc = (if s.readV x = s.readV y then s.pc + 2#16 else s.pc + 4#16) ∧
      Frame [] [] s t)

/-- R91, R92: EX9E skips if the key V[x] & 0x0F is pressed, EXA1 if it is not; nothing but PC changes. -/
def Obligations.KeySkips : Prop :=
  ∀ (x k : Nibble) (s : State), k.toNat = (s.readV x).toNat % 16 →
    (∃ t, exec (.skp x) s = .next t ∧ t.pc = (if s.isPressed k then s.pc + 4#16 else s.pc + 2#16) ∧
      Frame [] [] s t) ∧
    (∃ t, exec (.sknp x) s = .next t ∧ t.pc = (if s.isPressed k then s.pc + 2#16 else s.pc + 4#16) ∧
      Frame [] [] s t)

/-! ### ALU -/

/-- R67 to R69: 6XNN writes nn, 7XNN writes (V[x] + nn) mod 256, 8XY0 writes V[y]; no flag, and nothing else but PC. -/
def Obligations.LoadsAndAddImmediate : Prop :=
  ∀ (x y : Nibble) (nn : Byte) (s : State),
    (∃ t, exec (.ldImm x nn) s = .next t ∧ t.readV x = nn ∧ t.pc = s.pc + 2#16 ∧ Frame [x] [] s t) ∧
    (∃ t, exec (.addImm x nn) s = .next t ∧ (t.readV x).toNat = ((s.readV x).toNat + nn.toNat) % 256 ∧
      t.pc = s.pc + 2#16 ∧ Frame [x] [] s t) ∧
    (∃ t, exec (.ldReg x y) s = .next t ∧ t.readV x = s.readV y ∧ t.pc = s.pc + 2#16 ∧ Frame [x] [] s t)

/-- R70 to R72: bit by bit OR, AND and XOR; VF is unchanged unless it is the destination. -/
def Obligations.LogicBitByBit : Prop :=
  ∀ (x y : Nibble) (s : State),
    (∃ t, exec (.orReg x y) s = .next t ∧
      (∀ k, (t.readV x).getLsbD k = ((s.readV x).getLsbD k || (s.readV y).getLsbD k)) ∧
      t.pc = s.pc + 2#16 ∧ Frame [x] [] s t) ∧
    (∃ t, exec (.andReg x y) s = .next t ∧
      (∀ k, (t.readV x).getLsbD k = ((s.readV x).getLsbD k && (s.readV y).getLsbD k)) ∧
      t.pc = s.pc + 2#16 ∧ Frame [x] [] s t) ∧
    (∃ t, exec (.xorReg x y) s = .next t ∧
      (∀ k, (t.readV x).getLsbD k = ((s.readV x).getLsbD k != (s.readV y).getLsbD k)) ∧
      t.pc = s.pc + 2#16 ∧ Frame [x] [] s t)

/-- R73, R52: the sum modulo 256, and VF last: 1 when the exact sum exceeds 0xFF, else 0, also when X = 0xF. -/
def Obligations.AddRegistersWithCarry : Prop :=
  ∀ (x y : Nibble) (s : State), ∃ t, exec (.addReg x y) s = .next t ∧
    (x ≠ 0xF#4 → (t.readV x).toNat = ((s.readV x).toNat + (s.readV y).toNat) % 256) ∧
    (t.readV 0xF#4).toNat = (if 0xFF < (s.readV x).toNat + (s.readV y).toNat then 1 else 0) ∧
    t.pc = s.pc + 2#16 ∧ Frame [x, 0xF#4] [] s t

/-- R74, R76, R52: the difference modulo 256, and VF last: 1 when the minuend is strictly greater, else 0. -/
def Obligations.SubtractionsWithStrictFlag : Prop :=
  ∀ (x y : Nibble) (s : State),
    (∃ t, exec (.subReg x y) s = .next t ∧
      (x ≠ 0xF#4 → ((t.readV x).toNat : Int) = ((s.readV x).toNat - (s.readV y).toNat : Int) % 256) ∧
      (t.readV 0xF#4).toNat = (if (s.readV y).toNat < (s.readV x).toNat then 1 else 0) ∧
      t.pc = s.pc + 2#16 ∧ Frame [x, 0xF#4] [] s t) ∧
    (∃ t, exec (.subnReg x y) s = .next t ∧
      (x ≠ 0xF#4 → ((t.readV x).toNat : Int) = ((s.readV y).toNat - (s.readV x).toNat : Int) % 256) ∧
      (t.readV 0xF#4).toNat = (if (s.readV x).toNat < (s.readV y).toNat then 1 else 0) ∧
      t.pc = s.pc + 2#16 ∧ Frame [x, 0xF#4] [] s t)

/-- R75, R77, R48: a shift by one bit of V[x], whatever the Y field, and VF last: the bit shifted out. -/
def Obligations.ShiftsByOne : Prop :=
  ∀ (x y : Nibble) (s : State),
    (∃ t, exec (.shr x y) s = .next t ∧
      (x ≠ 0xF#4 → ∀ k, (t.readV x).getLsbD k = (s.readV x).getLsbD (k + 1)) ∧
      t.readV 0xF#4 = (if (s.readV x).getLsbD 0 then 1#8 else 0#8) ∧
      t.pc = s.pc + 2#16 ∧ Frame [x, 0xF#4] [] s t) ∧
    (∃ t, exec (.shl x y) s = .next t ∧
      (x ≠ 0xF#4 → ∀ k, k < 8 → (t.readV x).getLsbD k = (decide (0 < k) && (s.readV x).getLsbD (k - 1))) ∧
      t.readV 0xF#4 = (if (s.readV x).getLsbD 7 then 1#8 else 0#8) ∧
      t.pc = s.pc + 2#16 ∧ Frame [x, 0xF#4] [] s t)

/-- R78: one draw, masked by nn; the draw is free, so the value is that of this draw whatever it is, and a bit that is 0 in nn
is 0 in the result. -/
def Obligations.RandomDrawIsMasked : Prop :=
  ∀ (x : Nibble) (nn : Byte) (s : State), ∃ t, exec (.rnd x nn) s = .next t ∧
    t.readV x = (Config.rnd s.draws &&& nn) ∧ (∀ k, nn.getLsbD k = false → (t.readV x).getLsbD k = false) ∧
    t.draws = s.draws + 1 ∧ t.pc = s.pc + 2#16 ∧ Frame [x] [.draws] s t

/-! ### Index register and memory -/

/-- R79, R81: ANNN writes nnn; FX29 writes 0x050 + (V[x] & 0x0F) * 5. -/
def Obligations.IndexLoads : Prop :=
  ∀ (x : Nibble) (nnn : Addr12) (s : State),
    (∃ t, exec (.ldI nnn) s = .next t ∧ t.i.toNat = nnn.toNat ∧ t.pc = s.pc + 2#16 ∧ Frame [] [.index] s t) ∧
    (∃ t, exec (.ldF x) s = .next t ∧ t.i.toNat = 0x050 + (s.readV x).toNat % 16 * 5 ∧ t.pc = s.pc + 2#16 ∧
      Frame [] [.index] s t)

/-- R80: the sum modulo 0x10000, and VF last: 1 only when the exact sum exceeds 0xFFFF, else 0; also when X = 0xF. -/
def Obligations.AddToIndexSetsVfOnOverflow : Prop :=
  ∀ (x : Nibble) (s : State), ∃ t, exec (.addI x) s = .next t ∧
    t.i.toNat = (s.i.toNat + (s.readV x).toNat) % 0x10000 ∧
    (t.readV 0xF#4).toNat = (if 0xFFFF < s.i.toNat + (s.readV x).toNat then 1 else 0) ∧
    t.pc = s.pc + 2#16 ∧ Frame [0xF#4] [.index] s t

/-- R82: the three digits of V[x] at I, I + 1 and I + 2; every byte outside them reads as before; I is unchanged. When
I + 2 >= 0x1000 it raises MemoryFault with the lowest address of the range that does not exist, and (R98) nothing but run and
diag changes. The premise `Memory.wf` is part of the invariant that every step keeps. -/
def Obligations.BcdStoresThreeDigitsOrFaults : Prop :=
  ∀ (x : Nibble) (s : State), Memory.wf s.mem →
    (s.i.toNat + 2 < 0x1000 → ∃ t, exec (.ldB x) s = .next t ∧
      (t.readMem s.i.toNat).toNat = (s.readV x).toNat / 100 ∧
      (t.readMem (s.i.toNat + 1)).toNat = (s.readV x).toNat / 10 % 10 ∧
      (t.readMem (s.i.toNat + 2)).toNat = (s.readV x).toNat % 10 ∧
      (t.readMem s.i.toNat).toNat * 100 + (t.readMem (s.i.toNat + 1)).toNat * 10 +
        (t.readMem (s.i.toNat + 2)).toNat = (s.readV x).toNat ∧
      (∀ a, a < s.i.toNat ∨ s.i.toNat + 3 ≤ a → t.readMem a = s.readMem a) ∧
      t.pc = s.pc + 2#16 ∧ Frame [] [.memory] s t) ∧
    (0x1000 ≤ s.i.toNat + 2 → ∃ t, exec (.ldB x) s = .next t ∧
      t.run = .faulted .memoryFault s.pc ∧
      t.diag = s.diag ++ [.fault .memoryFault s.pc (some (max s.i.toNat 0x1000))] ∧ t.pc = s.pc ∧
      Frame [] [.run, .diag] s t)

/-- R83: V[0] to V[x] at I to I + x; every byte outside them reads as before; I is unchanged. When I + x >= 0x1000 it raises
MemoryFault, with no byte written (R98). The premise `Memory.wf` is part of the invariant that every step keeps. -/
def Obligations.BlockStoreOrFault : Prop :=
  ∀ (x : Nibble) (s : State), Memory.wf s.mem →
    (s.i.toNat + x.toNat < 0x1000 → ∃ t, exec (.ldMemV x) s = .next t ∧
      (∀ r : Nibble, r.toNat ≤ x.toNat → t.readMem (s.i.toNat + r.toNat) = s.readV r) ∧
      (∀ a, a < s.i.toNat ∨ s.i.toNat + x.toNat + 1 ≤ a → t.readMem a = s.readMem a) ∧
      t.pc = s.pc + 2#16 ∧ Frame [] [.memory] s t) ∧
    (0x1000 ≤ s.i.toNat + x.toNat → ∃ t, exec (.ldMemV x) s = .next t ∧
      t.run = .faulted .memoryFault s.pc ∧
      t.diag = s.diag ++ [.fault .memoryFault s.pc (some (max s.i.toNat 0x1000))] ∧ t.pc = s.pc ∧
      Frame [] [.run, .diag] s t)

/-- R84: V[0] to V[x] are the bytes at I to I + x; the registers above x and I are unchanged. When I + x >= 0x1000 it raises
MemoryFault, with no register written (R98). -/
def Obligations.BlockLoadOrFault : Prop :=
  ∀ (x : Nibble) (s : State),
    (s.i.toNat + x.toNat < 0x1000 → ∃ t, exec (.ldVMem x) s = .next t ∧
      (∀ r : Nibble, t.readV r =
        if r.toNat ≤ x.toNat then s.readMem (s.i.toNat + r.toNat) else s.readV r) ∧
      t.pc = s.pc + 2#16 ∧ (∀ p, Part.Kept s t p)) ∧
    (0x1000 ≤ s.i.toNat + x.toNat → ∃ t, exec (.ldVMem x) s = .next t ∧
      t.run = .faulted .memoryFault s.pc ∧
      t.diag = s.diag ++ [.fault .memoryFault s.pc (some (max s.i.toNat 0x1000))] ∧ t.pc = s.pc ∧
      Frame [] [.run, .diag] s t)

/-- The source's scenario "FX55 / FX65 round-trip" (R83, R84), for every x: the block stored, then any change of the registers,
then loaded, restores V[0] to V[x] and leaves I. -/
def Obligations.BlockStoreThenLoadRestores : Prop :=
  ∀ (x : Nibble) (s : State) (v : Vector Byte 16), Memory.wf s.mem → s.i.toNat + x.toNat < 0x1000 →
    ∃ t u, exec (.ldMemV x) s = .next t ∧ exec (.ldVMem x) { t with v := v } = .next u ∧ u.i = s.i ∧
      ∀ r : Nibble, r.toNat ≤ x.toNat → u.readV r = s.readV r

/-- R40, R32: the very next fetch reads each of its two bytes as FX55 or FX33 has just stored it, and as it was where the store
does not reach it: both bytes, one of them or none may be stored. -/
def Obligations.StoreIsSeenByTheNextFetch : Prop :=
  ∀ (x : Nibble) (s : State), Memory.wf s.mem → s.pc.toNat + 3 < 0x1000 →
    (s.i.toNat + x.toNat < 0x1000 → ∃ t, exec (.ldMemV x) s = .next t ∧
      t.fetch16 = some (bigEndian (blockByte s x (s.pc.toNat + 2)) (blockByte s x (s.pc.toNat + 3)))) ∧
    (s.i.toNat + 2 < 0x1000 → ∃ t, exec (.ldB x) s = .next t ∧
      t.fetch16 = some (bigEndian (bcdByte s x (s.pc.toNat + 2)) (bcdByte s x (s.pc.toNat + 3))))

/-! ### Display -/

/-- R85: every pixel is off after CLS; VF and the rest are unchanged. -/
def Obligations.ClsTurnsEveryPixelOff : Prop :=
  ∀ s : State, ∃ t, exec .cls s = .next t ∧ (∀ x y, t.pixel x y = false) ∧ t.pc = s.pc + 2#16 ∧ Frame [] [.screen] s t

/-- R86, R87: without a fault, a pixel of the 64 x 32 screen turns over exactly where the sprite has a 1 bit, VF is 1 exactly
when one of these was on and else 0, and nothing else changes; this includes n = 0, which reads nothing. When n >= 1 and
I + n - 1 >= 0x1000 it raises MemoryFault, drawn rows or not, with no pixel and not VF changed (R98). -/
def Obligations.DrawTurnsLitPixelsOverOrFaults : Prop :=
  ∀ (x y n : Nibble) (s : State),
    (n = 0#4 ∨ s.i.toNat + n.toNat ≤ 0x1000 → ∃ t, exec (.drw x y n) s = .next t ∧
      (∀ cx cy, cx < 64 → cy < 32 →
        (spriteBit s x y n cx cy → t.pixel cx cy = !s.pixel cx cy) ∧
        (¬ spriteBit s x y n cx cy → t.pixel cx cy = s.pixel cx cy)) ∧
      (t.readV 0xF#4 = 0#8 ∨ t.readV 0xF#4 = 1#8) ∧
      (t.readV 0xF#4 = 1#8 ↔
        ∃ cx cy, cx < 64 ∧ cy < 32 ∧ spriteBit s x y n cx cy ∧ s.pixel cx cy = true) ∧
      t.pc = s.pc + 2#16 ∧ Frame [0xF#4] [.screen] s t) ∧
    (1 ≤ n.toNat ∧ 0x1000 ≤ s.i.toNat + n.toNat - 1 → ∃ t, exec (.drw x y n) s = .next t ∧
      t.run = .faulted .memoryFault s.pc ∧
      t.diag = s.diag ++ [.fault .memoryFault s.pc (some (max s.i.toNat 0x1000))] ∧ t.pc = s.pc ∧
      Frame [] [.run, .diag] s t)

/-- R86 with n = 0, which R87 (the spec's own inference from R86) spells out: DXY0 reads no memory, so it faults for no I; it
draws no pixel and writes VF <- 0. -/
def Obligations.DrawOfNoRowsClearsVf : Prop :=
  ∀ (x y : Nibble) (s : State), ∃ t, exec (.drw x y 0#4) s = .next t ∧ t.readV 0xF#4 = 0#8 ∧
    t.pc = s.pc + 2#16 ∧ Frame [0xF#4] [] s t

/-- R88, the spec's own inference from R86: a pixel outside the rectangle from column sx to min(sx + 8, 64) - 1 and row sy to
min(sy + N, 32) - 1 never changes, and no state outside fb and VF does but PC, which is a + 2; where the draw faults (R98) only
run and diag change. -/
def Obligations.DrawStaysInsideItsRectangle : Prop :=
  ∀ (x y n : Nibble) (s t : State), exec (.drw x y n) s = .next t →
    (∀ cx cy, ¬ ((s.readV x).toNat % 64 ≤ cx ∧ cx < min ((s.readV x).toNat % 64 + 8) 64 ∧
        (s.readV y).toNat % 32 ≤ cy ∧ cy < min ((s.readV y).toNat % 32 + n.toNat) 32) →
      t.pixel cx cy = s.pixel cx cy) ∧
    ((t.pc = s.pc + 2#16 ∧ Frame [0xF#4] [.screen] s t) ∨
      (t.run = .faulted .memoryFault s.pc ∧ t.pc = s.pc ∧ Frame [] [.run, .diag] s t))

/-- The source's property P-3 (R86): drawing the same sprite twice at the same origin returns the screen to what it was, and VF
is set by R86's rule both times: after the first draw it is 1 exactly when some visible set bit fell on a pixel that was on, after
the second exactly when some visible set bit had fallen on a pixel that was off. X and Y are not VF, which the first draw
writes. -/
def Obligations.DrawTwiceRestoresTheScreen : Prop :=
  ∀ (x y n : Nibble) (s : State), n = 0#4 ∨ s.i.toNat + n.toNat ≤ 0x1000 → x ≠ 0xF#4 → y ≠ 0xF#4 →
    ∃ t u, exec (.drw x y n) s = .next t ∧ exec (.drw x y n) t = .next u ∧
      (∀ cx cy, u.pixel cx cy = s.pixel cx cy) ∧
      (t.readV 0xF#4 = 1#8 ↔
        ∃ cx cy, cx < 64 ∧ cy < 32 ∧ spriteBit s x y n cx cy ∧ s.pixel cx cy = true) ∧
      (u.readV 0xF#4 = 1#8 ↔
        ∃ cx cy, cx < 64 ∧ cy < 32 ∧ spriteBit s x y n cx cy ∧ s.pixel cx cy = false)

/-- R90: the glyph of each digit, row by row of the table of R90, stands at 0x050 + 5 d of the memory of State.reset. -/
def Obligations.FontAtReset : Prop :=
  Memory.readBytes State.reset.mem 0x050 5 = [0xF0#8, 0x90#8, 0x90#8, 0x90#8, 0xF0#8] ∧
  Memory.readBytes State.reset.mem 0x055 5 = [0x20#8, 0x60#8, 0x20#8, 0x20#8, 0x70#8] ∧
  Memory.readBytes State.reset.mem 0x05A 5 = [0xF0#8, 0x10#8, 0xF0#8, 0x80#8, 0xF0#8] ∧
  Memory.readBytes State.reset.mem 0x05F 5 = [0xF0#8, 0x10#8, 0xF0#8, 0x10#8, 0xF0#8] ∧
  Memory.readBytes State.reset.mem 0x064 5 = [0x90#8, 0x90#8, 0xF0#8, 0x10#8, 0x10#8] ∧
  Memory.readBytes State.reset.mem 0x069 5 = [0xF0#8, 0x80#8, 0xF0#8, 0x10#8, 0xF0#8] ∧
  Memory.readBytes State.reset.mem 0x06E 5 = [0xF0#8, 0x80#8, 0xF0#8, 0x90#8, 0xF0#8] ∧
  Memory.readBytes State.reset.mem 0x073 5 = [0xF0#8, 0x10#8, 0x20#8, 0x40#8, 0x40#8] ∧
  Memory.readBytes State.reset.mem 0x078 5 = [0xF0#8, 0x90#8, 0xF0#8, 0x90#8, 0xF0#8] ∧
  Memory.readBytes State.reset.mem 0x07D 5 = [0xF0#8, 0x90#8, 0xF0#8, 0x10#8, 0xF0#8] ∧
  Memory.readBytes State.reset.mem 0x082 5 = [0xF0#8, 0x90#8, 0xF0#8, 0x90#8, 0x90#8] ∧
  Memory.readBytes State.reset.mem 0x087 5 = [0xE0#8, 0x90#8, 0xE0#8, 0x90#8, 0xE0#8] ∧
  Memory.readBytes State.reset.mem 0x08C 5 = [0xF0#8, 0x80#8, 0x80#8, 0x80#8, 0xF0#8] ∧
  Memory.readBytes State.reset.mem 0x091 5 = [0xE0#8, 0x90#8, 0x90#8, 0x90#8, 0xE0#8] ∧
  Memory.readBytes State.reset.mem 0x096 5 = [0xF0#8, 0x80#8, 0xF0#8, 0x80#8, 0xF0#8] ∧
  Memory.readBytes State.reset.mem 0x09B 5 = [0xF0#8, 0x80#8, 0xF0#8, 0x80#8, 0x80#8]

/-! ### Keypad and timers -/

/-- R94 to R96: FX07 reads DT, FX15 writes it, FX18 writes ST and leaves `tone`. -/
def Obligations.TimerTransfers : Prop :=
  ∀ (x : Nibble) (s : State),
    (∃ t, exec (.ldVDt x) s = .next t ∧ t.readV x = s.dt ∧ t.pc = s.pc + 2#16 ∧ Frame [x] [] s t) ∧
    (∃ t, exec (.ldDtV x) s = .next t ∧ t.dt = s.readV x ∧ t.pc = s.pc + 2#16 ∧ Frame [] [.delayTimer] s t) ∧
    (∃ t, exec (.ldStV x) s = .next t ∧ t.st = s.readV x ∧ t.tone = s.tone ∧ t.pc = s.pc + 2#16 ∧
      Frame [] [.soundTimer] s t)

/-- R93: FX0A leaves PC at a + 2 and run at WaitKey(x), and writes no register yet. -/
def Obligations.WaitForKeyBlocks : Prop :=
  ∀ (x : Nibble) (s : State), ∃ t, exec (.ldK x) s = .next t ∧ t.run = .waitKey x ∧ t.pc = s.pc + 2#16 ∧
    Frame [] [.run] s t

/-- R108, R93: KeyDown(k) releases the most-recent key, presses k and records it. While Running nothing else changes; while run =
WaitKey(x) it also writes k to V[x] and sets run to Running, which completes FX0A. Nothing else changes then either, but that
with QUIRK_TIMER_PER_INSTRUCTION true the one tick that follows FX0A happens now: DT, ST and tone are then those of a tick. That
is the model's reading (notes/assumptions/5.md); that the event is the next input is its form of the port
(notes/assumptions/1.md). -/
def Obligations.KeyDownLatchesOneKeyAndEndsTheWait : Prop :=
  ∀ (k : Nibble) (s : State), s.nextInput = .keyDown k →
    (s.run = .running → ∃ t, step s = .next t ∧ t.last = some k ∧
      (∀ j, t.isPressed j = (decide (j = k) || (s.isPressed j && decide (s.last ≠ some j)))) ∧
      t.pc = s.pc ∧ Frame [] [.pressed, .last] s.dropInput t) ∧
    (∀ x, s.run = .waitKey x →
      ∃ t, step s = .next t ∧ t.run = .running ∧ (t.readV x).toNat = k.toNat ∧ t.last = some k ∧
      (∀ j, t.isPressed j = (decide (j = k) || (s.isPressed j && decide (s.last ≠ some j)))) ∧
      t.pc = s.pc ∧ Frame [x] [.pressed, .last, .run, .delayTimer, .soundTimer, .tone] s.dropInput t ∧
      (s.params.quirkTimerPerInstruction = false → t.dt = s.dt ∧ t.st = s.st ∧ t.tone = s.tone) ∧
      (s.params.quirkTimerPerInstruction = true → t.dt.toNat = s.dt.toNat - 1 ∧ t.st.toNat = s.st.toNat - 1 ∧
        (t.tone = true ↔ 0 < s.st.toNat)))

/-- R109: KeyUp(k) removes k from pressed; `last` and run are unchanged (that the event is the next input:
notes/assumptions/1.md). -/
def Obligations.KeyUpReleasesTheKey : Prop :=
  ∀ (k : Nibble) (s : State), s.live → s.nextInput = .keyUp k →
    ∃ t, step s = .next t ∧ (∀ j, t.isPressed j = (s.isPressed j && decide (j ≠ k))) ∧
      t.pc = s.pc ∧ Frame [] [.pressed] s.dropInput t

/-- R105, R104: a free timer tick, while Running or waiting: a timer above 0 goes down by 1, a zero timer stays, and tone says
whether ST was above 0 before the decrement (that the event is the next input: notes/assumptions/1.md). -/
def Obligations.TimerTickCountsDown : Prop :=
  ∀ s : State, s.live → s.nextInput = .timerTick → s.params.quirkTimerPerInstruction = false →
    ∃ t, step s = .next t ∧ t.dt.toNat = s.dt.toNat - 1 ∧ t.st.toNat = s.st.toNat - 1 ∧
      (t.tone = true ↔ 0 < s.st.toNat) ∧ t.pc = s.pc ∧ Frame [] [.delayTimer, .soundTimer, .tone] s.dropInput t

/-- R106: after ST = n, the next n ticks set tone and the tick after them clears it. -/
def Obligations.ToneLastsAsManyTicksAsSt : Prop :=
  ∀ (s : State) (k : Nat), (ticks (k + 1) s).tone = decide (k < s.st.toNat) ∧
    (ticks k s).st.toNat = s.st.toNat - k ∧ (ticks k s).dt.toNat = s.dt.toNat - k

/-- R104: with QUIRK_TIMER_PER_INSTRUCTION true, the timer engine has no free step, and exactly one TimerTick follows each
instruction that does not fault: within the step of an instruction that leaves the block Running, and within that of an unknown
word; not within the step of FX0A, but when its key arrives; none after a fatal fault, and none while run = WaitKey. Where the tick
falls is the model's reading (notes/assumptions/5.md); that a free tick is taken from the inputs and changes nothing is its form
of the port (notes/assumptions/1.md). -/
def Obligations.QuirkTicksOncePerInstruction : Prop :=
  ∀ s : State, s.params.quirkTimerPerInstruction = true →
    (s.live → s.nextInput = .timerTick → step s = .next s.dropInput) ∧
    (s.run = .running → s.nextInput = .cycle → s.pc.toNat + 1 < 0x1000 →
      (∀ i t, decode [s.readMem s.pc.toNat, s.readMem (s.pc.toNat + 1)] = .ok (i, []) →
        exec i s.dropInput = .next t →
        (t.run = .running → step s = .next t.timerTick) ∧ (t.run ≠ .running → step s = .next t)) ∧
      (∀ w, bigEndian (s.readMem s.pc.toNat) (s.readMem (s.pc.toNat + 1)) = w →
        (∀ j, w &&& rowMask j ≠ rowMatch j) → step s = .next (s.dropInput.reportUnknown w).timerTick)) ∧
    (∀ x k, s.run = .waitKey x → s.nextInput = .keyDown k →
      ∃ u : State, (u.dt = s.dt ∧ u.st = s.st ∧ u.tone = s.tone ∧ u.run = .running) ∧ step s = .next u.timerTick)

/-- R112: Quit, while Running or waiting, sets run to Quit and changes nothing else, so a waiting FX0A leaves V[x] unwritten (that
the event is the next input: notes/assumptions/1.md). Quit is final: that the step after it stops under a name of its own is the
model's form of the spec's `stuck` (notes/assumptions/7.md). -/
def Obligations.QuitChangesRunAlone : Prop :=
  ∀ s : State, s.live → s.nextInput = .quit →
    ∃ t, step s = .next t ∧ t.run = .quit ∧ t.pc = s.pc ∧ Frame [] [.run] s.dropInput t ∧ step t = .fault .endedQuit

/-! ### Reset and load -/

/-- R27: the state after load of an empty program, but for the font, which `FontAtReset` states: zero memory outside it, every
register and timer zero, PC 0x200, S empty, every pixel off, no key, Running, no tone, no report. -/
def Obligations.ResetValues : Prop :=
  (∀ a, a < 0x050 ∨ 0x0A0 ≤ a → State.reset.readMem a = 0#8) ∧ (∀ r, State.reset.readV r = 0#8) ∧
  State.reset.i = 0#16 ∧ State.reset.pc = 0x200#16 ∧ State.reset.stack = [] ∧ State.reset.dt = 0#8 ∧
  State.reset.st = 0#8 ∧ (∀ x y, State.reset.pixel x y = false) ∧ (∀ k, State.reset.isPressed k = false) ∧
  State.reset.last = none ∧ State.reset.run = .running ∧ State.reset.tone = false ∧ State.reset.diag = []

/-- R117, R118: a program of at most 3584 bytes loads: byte k stands at 0x200 + k, every other byte is as at reset, and every
other piece of state is at its reset value (the parameters, the inputs on their way and the counts of free rounds and of draws,
which are no state of the spec's, are kept: notes/assumptions/4.md). A longer program fails with ProgramTooLarge(len(program)) and
gives no state. -/
def Obligations.LoadPlacesTheProgramOrRefusesIt : Prop :=
  ∀ (program : List Byte) (s : State),
    (program.length ≤ 3584 → ∃ t, load program s = .next t ∧
      (∀ k (h : k < program.length), t.readMem (0x200 + k) = program[k]) ∧
      (∀ a, a < 0x200 ∨ 0x200 + program.length ≤ a → t.readMem a = State.reset.readMem a) ∧
      t.pc = 0x200#16 ∧ Memory.wf t.mem ∧
      t.params = s.params ∧ t.inputs = s.inputs ∧ t.rounds = s.rounds ∧ t.draws = s.draws ∧
      Frame [] [.memory, .params, .inputs, .rounds, .draws] State.reset t) ∧
    (3584 < program.length → load program s = .fault (.programTooLarge program.length))

/-! ### The whole machine -/

/-- The invariant holds at reset. -/
def Obligations.InvariantAtReset : Prop := Inv State.reset

/-- The invariant holds after every load that succeeds on a block whose STACK_DEPTH is at least 16. -/
def Obligations.InvariantAfterLoad : Prop :=
  ∀ (program : List Byte) (s t : State), s.params.wellFormed = true → load program s = .next t → Inv t

/-- Every step of every agent keeps the invariant: canonical memory inside the address space, the stack within STACK_DEPTH (R19)
with return addresses at most 0x1000, PC at most 0x1002 (R18), at most one pressed key and that the most-recent one (R22), and
PC at the faulting instruction after a fatal fault (R98). -/
def Obligations.EveryStepKeepsTheInvariant : Prop :=
  ∀ s t : State, Inv s → step s = .next t → Inv t

/-- R24, R25: no step changes the parameters or takes a report out of diag; a step adds at most one report. -/
def Obligations.DiagOnlyGrows : Prop :=
  ∀ s t : State, step s = .next t → t.params = s.params ∧
    (t.diag = s.diag ∨ ∃ d, t.diag = s.diag ++ [d])

/-- R54: an instruction that is no jump, CALL, RET or skip, and does not fault, leaves PC at a + 2. -/
def Obligations.PlainInstructionsAdvancePcByTwo : Prop :=
  ∀ (i : Instr) (s t : State), isTransfer i = false → exec i s = .next t →
    (∀ kind addr, t.run ≠ .faulted kind addr) → t.pc = s.pc + 2#16

/-- R16, R122: an instruction that is none of the seven flag writers leaves VF unchanged unless VF is its named destination
(FX65 with X = 0xF among these); one of the seven that does not fault leaves 0 or 1 in it. -/
def Obligations.OnlyTheSevenWriteVfAsAFlag : Prop :=
  ∀ (i : Instr) (s t : State), exec i s = .next t →
    (writesFlag i = false → destReg i ≠ some 0xF#4 → t.readV 0xF#4 = s.readV 0xF#4) ∧
    (writesFlag i = true → (∀ kind addr, t.run ≠ .faulted kind addr) →
      t.readV 0xF#4 = 0#8 ∨ t.readV 0xF#4 = 1#8)

/-- R106, R22, R26: no instruction writes tone, the keypad, the parameters or the inputs on their way. -/
def Obligations.InstructionsLeaveToneAndKeypad : Prop :=
  ∀ (i : Instr) (s t : State), exec i s = .next t →
    Part.Kept s t .tone ∧ Part.Kept s t .pressed ∧ Part.Kept s t .last ∧ Part.Kept s t .params ∧ Part.Kept s t .inputs ∧
      Part.Kept s t .rounds

/-- R20, R24, R22: no instruction reads ST, tone, diag or the most-recent slot: two states that differ only there answer states
that differ only there. -/
def Obligations.NoInstructionReadsStToneDiagOrLast : Prop :=
  ∀ (i : Instr) (s : State) (st : Byte) (tone : Bool) (diag : List Diag) (last : Option Nibble),
    ∃ t u, exec i s = .next t ∧ exec i { s with st := st, tone := tone, diag := diag, last := last } = .next u ∧
      { u with st := t.st, tone := t.tone, diag := t.diag, last := t.last } = t
end

