-- ==== Sys2Proof/Laws/Decode.lean ====
section
/-! SUPPORT. The fields of a word: a word is its four nibbles, and each field of a word written from its parts is that part. -/

namespace Sys2Proof

theorem opField_toNat (w : Word) : (opField w).toNat = w.toNat / 4096 := by
  have := w.isLt
  simp [opField, BitVec.extractLsb'_toNat, Nat.shiftRight_eq_div_pow]
  omega

theorem xField_toNat (w : Word) : (xField w).toNat = w.toNat / 256 % 16 := by
  simp [xField, BitVec.extractLsb'_toNat, Nat.shiftRight_eq_div_pow]

theorem yField_toNat (w : Word) : (yField w).toNat = w.toNat / 16 % 16 := by
  simp [yField, BitVec.extractLsb'_toNat, Nat.shiftRight_eq_div_pow]

theorem nField_toNat (w : Word) : (nField w).toNat = w.toNat % 16 := by
  simp [nField, BitVec.extractLsb'_toNat]

theorem nnField_toNat (w : Word) : (nnField w).toNat = w.toNat % 256 := by
  simp [nnField, BitVec.extractLsb'_toNat]

theorem nnnField_toNat (w : Word) : (nnnField w).toNat = w.toNat % 4096 := by
  simp [nnnField, BitVec.extractLsb'_toNat]

/-- The value of a word written op, x, y, n (R43). -/
theorem toNat_nibbles (a b c d : Nibble) :
    (a ++ b ++ c ++ d : Word).toNat = a.toNat * 4096 + b.toNat * 256 + c.toNat * 16 + d.toNat := by
  have ha := a.isLt
  have hb := b.isLt
  have hc := c.isLt
  have hd := d.isLt
  rw [BitVec.toNat_append, BitVec.toNat_append, BitVec.toNat_append,
    ← Nat.shiftLeft_add_eq_or_of_lt hb, ← Nat.shiftLeft_add_eq_or_of_lt hc,
    ← Nat.shiftLeft_add_eq_or_of_lt hd]
  simp only [Nat.shiftLeft_eq]
  omega

/-- The value of a word written op, x, nn (R43). -/
theorem toNat_opXNn (a b : Nibble) (c : Byte) :
    (a ++ b ++ c : Word).toNat = a.toNat * 4096 + b.toNat * 256 + c.toNat := by
  have ha := a.isLt
  have hb := b.isLt
  have hc := c.isLt
  rw [BitVec.toNat_append, BitVec.toNat_append,
    ← Nat.shiftLeft_add_eq_or_of_lt hb, ← Nat.shiftLeft_add_eq_or_of_lt hc]
  simp only [Nat.shiftLeft_eq]
  omega

/-- The value of a word written op, nnn (R43). -/
theorem toNat_opNnn (a : Nibble) (c : Addr12) : (a ++ c : Word).toNat = a.toNat * 4096 + c.toNat := by
  have ha := a.isLt
  have hc := c.isLt
  rw [BitVec.toNat_append, ← Nat.shiftLeft_add_eq_or_of_lt hc]
  simp only [Nat.shiftLeft_eq]

/-- The value of a big-endian word (R31). -/
theorem bigEndian_toNat (hi lo : Byte) : (bigEndian hi lo).toNat = hi.toNat * 256 + lo.toNat := by
  have h1 := hi.isLt
  have h2 := lo.isLt
  unfold bigEndian
  rw [BitVec.toNat_append, ← Nat.shiftLeft_add_eq_or_of_lt h2]
  simp only [Nat.shiftLeft_eq]

/-- A word is the big-endian word of its two bytes (R31). -/
theorem bigEndian_bytes (w : Word) : bigEndian (highByte w) (lowByte w) = w := by
  apply BitVec.eq_of_toNat_eq
  have := w.isLt
  rw [bigEndian_toNat]
  simp [highByte, lowByte, BitVec.extractLsb'_toNat, Nat.shiftRight_eq_div_pow]
  omega

/-! ### The fields of a word written from its parts (R43) -/

@[simp] theorem opField_nibbles (a b c d : Nibble) : opField (a ++ b ++ c ++ d : Word) = a := by
  apply BitVec.eq_of_toNat_eq
  have ha := a.isLt
  have hb := b.isLt
  have hc := c.isLt
  have hd := d.isLt
  rw [opField_toNat, toNat_nibbles]
  omega

@[simp] theorem xField_nibbles (a b c d : Nibble) : xField (a ++ b ++ c ++ d : Word) = b := by
  apply BitVec.eq_of_toNat_eq
  have ha := a.isLt
  have hb := b.isLt
  have hc := c.isLt
  have hd := d.isLt
  rw [xField_toNat, toNat_nibbles]
  omega

@[simp] theorem yField_nibbles (a b c d : Nibble) : yField (a ++ b ++ c ++ d : Word) = c := by
  apply BitVec.eq_of_toNat_eq
  have ha := a.isLt
  have hb := b.isLt
  have hc := c.isLt
  have hd := d.isLt
  rw [yField_toNat, toNat_nibbles]
  omega

@[simp] theorem nField_nibbles (a b c d : Nibble) : nField (a ++ b ++ c ++ d : Word) = d := by
  apply BitVec.eq_of_toNat_eq
  have ha := a.isLt
  have hb := b.isLt
  have hc := c.isLt
  have hd := d.isLt
  rw [nField_toNat, toNat_nibbles]
  omega

@[simp] theorem opField_opXNn (a b : Nibble) (c : Byte) : opField (a ++ b ++ c : Word) = a := by
  apply BitVec.eq_of_toNat_eq
  have ha := a.isLt
  have hb := b.isLt
  have hc := c.isLt
  rw [opField_toNat, toNat_opXNn]
  omega

@[simp] theorem xField_opXNn (a b : Nibble) (c : Byte) : xField (a ++ b ++ c : Word) = b := by
  apply BitVec.eq_of_toNat_eq
  have ha := a.isLt
  have hb := b.isLt
  have hc := c.isLt
  rw [xField_toNat, toNat_opXNn]
  omega

@[simp] theorem nnField_opXNn (a b : Nibble) (c : Byte) : nnField (a ++ b ++ c : Word) = c := by
  apply BitVec.eq_of_toNat_eq
  have ha := a.isLt
  have hb := b.isLt
  have hc := c.isLt
  rw [nnField_toNat, toNat_opXNn]
  omega

@[simp] theorem opField_opNnn (a : Nibble) (c : Addr12) : opField (a ++ c : Word) = a := by
  apply BitVec.eq_of_toNat_eq
  have ha := a.isLt
  have hc := c.isLt
  rw [opField_toNat, toNat_opNnn]
  omega

@[simp] theorem nnnField_opNnn (a : Nibble) (c : Addr12) : nnnField (a ++ c : Word) = c := by
  apply BitVec.eq_of_toNat_eq
  have ha := a.isLt
  have hc := c.isLt
  rw [nnnField_toNat, toNat_opNnn]
  omega

/-- A word is its four nibbles (R43). -/
theorem word_eq_nibbles (w : Word) : w = opField w ++ xField w ++ yField w ++ nField w := by
  apply BitVec.eq_of_toNat_eq
  have := w.isLt
  rw [toNat_nibbles, opField_toNat, xField_toNat, yField_toNat, nField_toNat]
  omega

/-- A word is op, x, nn (R43). -/
theorem word_eq_opXNn (w : Word) : w = opField w ++ xField w ++ nnField w := by
  apply BitVec.eq_of_toNat_eq
  have := w.isLt
  rw [toNat_opXNn, opField_toNat, xField_toNat, nnField_toNat]
  omega

/-- A word is op, nnn (R43). -/
theorem word_eq_opNnn (w : Word) : w = opField w ++ nnnField w := by
  apply BitVec.eq_of_toNat_eq
  have := w.isLt
  rw [toNat_opNnn, opField_toNat, nnnField_toNat]
  omega

end Sys2Proof
end

