-- ==== Sys2Proof/Laws/Memory.lean ====
section
/-! SUPPORT. Memory: a read after a write, runs of bytes, the range check, and that every operation keeps the canonical
form. -/

namespace Sys2Proof.Machine

theorem read_consCell_self (m : Memory) (a : Nat) (b : Byte)
    (h : Memory.read m a = resetByte a) : Memory.read (Memory.consCell a b m) a = b := by
  unfold Memory.consCell
  split
  · next hb => rw [h, hb]
  · simp [Memory.read]

theorem read_consCell_other (m : Memory) {a c : Nat} (b : Byte) (h : c ≠ a) :
    Memory.read (Memory.consCell a b m) c = Memory.read m c := by
  unfold Memory.consCell
  split
  · rfl
  · simp [Memory.read, Ne.symm h]

/-- An address below every listed one reads its reset content. -/
theorem read_of_lt_all (m : Memory) (a : Nat) (h : ∀ c ∈ m, a < c.1) : Memory.read m a = resetByte a := by
  induction m with
  | nil => rfl
  | cons c m ih =>
    have h0 := h c (by simp)
    have : c.1 ≠ a := by omega
    simp only [Memory.read, this, if_false]
    exact ih fun d hd => h d (by simp [hd])

/-- A write leaves every other address alone. -/
theorem read_write_other (m : Memory) {a c : Nat} (b : Byte) (h : c ≠ a) :
    Memory.read (Memory.write m a b) c = Memory.read m c := by
  induction m with
  | nil => simp only [Memory.write]; exact read_consCell_other [] b h
  | cons d m ih =>
    simp only [Memory.write]
    split
    · exact read_consCell_other _ b h
    split
    · next hd =>
      rw [read_consCell_other _ b h]
      simp [Memory.read, ← hd, Ne.symm h]
    · simp only [Memory.read, ih]

/-- A read after a write to the same address gives the value written. -/
theorem read_write_self (m : Memory) (a : Nat) (b : Byte) (hm : m.Pairwise (fun c d => c.1 < d.1)) :
    Memory.read (Memory.write m a b) a = b := by
  induction m with
  | nil => simp only [Memory.write]; exact read_consCell_self [] a b rfl
  | cons d m ih =>
    rw [List.pairwise_cons] at hm
    simp only [Memory.write]
    split
    · next hlt =>
      refine read_consCell_self _ a b (read_of_lt_all _ a fun c hc => ?_)
      rcases List.mem_cons.mp hc with rfl | hc
      · exact hlt
      · exact Nat.lt_trans hlt (hm.1 c hc)
    split
    · next heq =>
      refine read_consCell_self _ a b (read_of_lt_all _ a fun c hc => ?_)
      rw [heq]; exact hm.1 c hc
    · next hne => simp only [Memory.read, Ne.symm hne, if_false]; exact ih hm.2

theorem mem_consCell {m : Memory} {a : Nat} {b : Byte} {c : Host.Cell} (h : c ∈ Memory.consCell a b m) :
    (c = (a, b) ∧ b ≠ resetByte a) ∨ c ∈ m := by
  unfold Memory.consCell at h
  split at h
  · exact .inr h
  · next hb =>
    rcases List.mem_cons.mp h with h | h
    · exact .inl ⟨h, hb⟩
    · exact .inr h

theorem mem_write {m : Memory} {a : Nat} {b : Byte} {c : Host.Cell} (h : c ∈ Memory.write m a b) :
    (c = (a, b) ∧ b ≠ resetByte a) ∨ c ∈ m := by
  induction m with
  | nil => exact mem_consCell h
  | cons d m ih =>
    simp only [Memory.write] at h
    split at h
    · exact mem_consCell h
    split at h
    · rcases mem_consCell h with h | h
      · exact .inl h
      · exact .inr (List.mem_cons_of_mem _ h)
    · rcases List.mem_cons.mp h with h | h
      · exact .inr (by simp [h])
      · rcases ih h with h | h
        · exact .inl h
        · exact .inr (List.mem_cons_of_mem _ h)

theorem pairwise_consCell {m : Memory} {a : Nat} {b : Byte} (hm : m.Pairwise (fun c d => c.1 < d.1))
    (h : ∀ c ∈ m, a < c.1) : (Memory.consCell a b m).Pairwise (fun c d => c.1 < d.1) := by
  unfold Memory.consCell
  split
  · exact hm
  · exact List.pairwise_cons.mpr ⟨h, hm⟩

theorem pairwise_write {m : Memory} (a : Nat) (b : Byte) (hm : m.Pairwise (fun c d => c.1 < d.1)) :
    (Memory.write m a b).Pairwise (fun c d => c.1 < d.1) := by
  induction m with
  | nil => exact pairwise_consCell hm (by simp)
  | cons d m ih =>
    have hm' := List.pairwise_cons.mp hm
    simp only [Memory.write]
    split
    · next hlt =>
      refine pairwise_consCell hm fun c hc => ?_
      rcases List.mem_cons.mp hc with rfl | hc
      · exact hlt
      · exact Nat.lt_trans hlt (hm'.1 c hc)
    split
    · next heq => exact pairwise_consCell hm'.2 fun c hc => by rw [heq]; exact hm'.1 c hc
    · refine List.pairwise_cons.mpr ⟨fun c hc => ?_, ih hm'.2⟩
      rcases mem_write hc with ⟨rfl, -⟩ | hc
      · show d.1 < a
        omega
      · exact hm'.1 c hc

/-- A write inside the address space keeps the canonical form. -/
theorem write_wf {m : Memory} {a : Nat} (b : Byte) (hm : Memory.wf m) (ha : a < Config.memSize) :
    Memory.wf (Memory.write m a b) := by
  refine ⟨pairwise_write a b hm.1, fun c hc => ?_⟩
  rcases mem_write hc with ⟨rfl, hb⟩ | hc
  · exact ⟨ha, hb⟩
  · exact hm.2 c hc

/-- A run of writes inside the address space keeps the canonical form. -/
theorem writeBytes_wf {m : Memory} (a : Nat) (bs : List Byte) (hm : Memory.wf m)
    (h : a + bs.length ≤ Config.memSize) : Memory.wf (Memory.writeBytes m a bs) := by
  induction bs generalizing m a with
  | nil => exact hm
  | cons b bs ih =>
    simp only [List.length_cons] at h
    exact ih (a + 1) (write_wf b hm (by omega)) (by omega)

theorem pairwise_writeBytes {m : Memory} (a : Nat) (bs : List Byte) (hm : m.Pairwise (fun c d => c.1 < d.1)) :
    (Memory.writeBytes m a bs).Pairwise (fun c d => c.1 < d.1) := by
  induction bs generalizing m a with
  | nil => exact hm
  | cons b bs ih => exact ih (a + 1) (pairwise_write a b hm)

/-- A run of writes leaves the addresses outside it alone. -/
theorem read_writeBytes_outside (m : Memory) (a : Nat) (bs : List Byte) (c : Nat)
    (h : c < a ∨ a + bs.length ≤ c) : Memory.read (Memory.writeBytes m a bs) c = Memory.read m c := by
  induction bs generalizing m a with
  | nil => rfl
  | cons b bs ih =>
    simp only [List.length_cons] at h
    show Memory.read (Memory.writeBytes (Memory.write m a b) (a + 1) bs) c = _
    rw [ih _ _ (by omega), read_write_other _ _ (by omega)]

/-- Inside a run of writes, each address reads its byte of the run. -/
theorem read_writeBytes_inside (m : Memory) (a : Nat) (bs : List Byte) (hm : m.Pairwise (fun c d => c.1 < d.1))
    (k : Nat) (hk : k < bs.length) : Memory.read (Memory.writeBytes m a bs) (a + k) = bs[k] := by
  induction bs generalizing m a k with
  | nil => simp at hk
  | cons b bs ih =>
    show Memory.read (Memory.writeBytes (Memory.write m a b) (a + 1) bs) (a + k) = _
    cases k with
    | zero =>
      rw [read_writeBytes_outside _ _ _ _ (by omega)]
      exact read_write_self m a b hm
    | succ k =>
      simp only [List.length_cons] at hk
      have := ih (Memory.write m a b) (a + 1) (pairwise_write a b hm) k (by omega)
      simp only [List.getElem_cons_succ]
      rw [← this]
      congr 1
      omega

@[simp] theorem readBytes_length (m : Memory) (a n : Nat) : (Memory.readBytes m a n).length = n := by
  simp [Memory.readBytes]

@[simp] theorem readBytes_getElem (m : Memory) (a n k : Nat) (h : k < (Memory.readBytes m a n).length) :
    (Memory.readBytes m a n)[k] = Memory.read m (a + k) := by
  simp [Memory.readBytes]

/-- The check passes exactly when every address of the range exists. -/
theorem rangeFault_none {base len : Nat} (h : base + len ≤ Config.memSize) : rangeFault base len = none := by
  unfold rangeFault
  rw [if_neg]
  omega

/-- The check names the lowest address of the range that does not exist. -/
theorem rangeFault_some {base len : Nat} (hl : 1 ≤ len) (h : Config.memSize < base + len) :
    rangeFault base len = some (max base Config.memSize) := by
  unfold rangeFault
  rw [if_pos]
  omega

theorem rangeFault_empty (base : Nat) : rangeFault base 0 = none := by
  unfold rangeFault
  rw [if_neg]
  omega

/-- If the check passes, the range is empty or lies inside the address space. -/
theorem of_rangeFault_none {base len : Nat} (h : rangeFault base len = none) :
    len = 0 ∨ base + len ≤ Config.memSize := by
  unfold rangeFault at h
  split at h
  · simp at h
  · omega

end Sys2Proof.Machine
end

