-- ==== Sys2Proof/Laws/State.lean ====
section
/-! SUPPORT. The state's small lemmas: one per field per update, each true by rfl, so that no proof unfolds a record update. -/

namespace Sys2Proof.Machine

/-! ### writeV -/

@[simp] theorem writeV_mem (s : State) (x : Nibble) (b : Byte) : (s.writeV x b).mem = s.mem := rfl
@[simp] theorem writeV_v (s : State) (x : Nibble) (b : Byte) : (s.writeV x b).v = s.v.set x.toNat b x.isLt := rfl
@[simp] theorem writeV_i (s : State) (x : Nibble) (b : Byte) : (s.writeV x b).i = s.i := rfl
@[simp] theorem writeV_pc (s : State) (x : Nibble) (b : Byte) : (s.writeV x b).pc = s.pc := rfl
@[simp] theorem writeV_stack (s : State) (x : Nibble) (b : Byte) : (s.writeV x b).stack = s.stack := rfl
@[simp] theorem writeV_dt (s : State) (x : Nibble) (b : Byte) : (s.writeV x b).dt = s.dt := rfl
@[simp] theorem writeV_st (s : State) (x : Nibble) (b : Byte) : (s.writeV x b).st = s.st := rfl
@[simp] theorem writeV_fb (s : State) (x : Nibble) (b : Byte) : (s.writeV x b).fb = s.fb := rfl
@[simp] theorem writeV_pressed (s : State) (x : Nibble) (b : Byte) : (s.writeV x b).pressed = s.pressed := rfl
@[simp] theorem writeV_last (s : State) (x : Nibble) (b : Byte) : (s.writeV x b).last = s.last := rfl
@[simp] theorem writeV_run (s : State) (x : Nibble) (b : Byte) : (s.writeV x b).run = s.run := rfl
@[simp] theorem writeV_tone (s : State) (x : Nibble) (b : Byte) : (s.writeV x b).tone = s.tone := rfl
@[simp] theorem writeV_diag (s : State) (x : Nibble) (b : Byte) : (s.writeV x b).diag = s.diag := rfl
@[simp] theorem writeV_params (s : State) (x : Nibble) (b : Byte) : (s.writeV x b).params = s.params := rfl
@[simp] theorem writeV_inputs (s : State) (x : Nibble) (b : Byte) : (s.writeV x b).inputs = s.inputs := rfl
@[simp] theorem writeV_rounds (s : State) (x : Nibble) (b : Byte) : (s.writeV x b).rounds = s.rounds := rfl
@[simp] theorem writeV_draws (s : State) (x : Nibble) (b : Byte) : (s.writeV x b).draws = s.draws := rfl

/-! ### advance -/

@[simp] theorem advance_mem (s : State) : s.advance.mem = s.mem := rfl
@[simp] theorem advance_v (s : State) : s.advance.v = s.v := rfl
@[simp] theorem advance_i (s : State) : s.advance.i = s.i := rfl
@[simp] theorem advance_pc (s : State) : s.advance.pc = s.pc + 2#16 := rfl
@[simp] theorem advance_stack (s : State) : s.advance.stack = s.stack := rfl
@[simp] theorem advance_dt (s : State) : s.advance.dt = s.dt := rfl
@[simp] theorem advance_st (s : State) : s.advance.st = s.st := rfl
@[simp] theorem advance_fb (s : State) : s.advance.fb = s.fb := rfl
@[simp] theorem advance_pressed (s : State) : s.advance.pressed = s.pressed := rfl
@[simp] theorem advance_last (s : State) : s.advance.last = s.last := rfl
@[simp] theorem advance_run (s : State) : s.advance.run = s.run := rfl
@[simp] theorem advance_tone (s : State) : s.advance.tone = s.tone := rfl
@[simp] theorem advance_diag (s : State) : s.advance.diag = s.diag := rfl
@[simp] theorem advance_params (s : State) : s.advance.params = s.params := rfl
@[simp] theorem advance_inputs (s : State) : s.advance.inputs = s.inputs := rfl
@[simp] theorem advance_rounds (s : State) : s.advance.rounds = s.rounds := rfl
@[simp] theorem advance_draws (s : State) : s.advance.draws = s.draws := rfl

/-! ### skipIf -/

@[simp] theorem skipIf_mem (s : State) (c : Bool) : (s.skipIf c).mem = s.mem := rfl
@[simp] theorem skipIf_v (s : State) (c : Bool) : (s.skipIf c).v = s.v := rfl
@[simp] theorem skipIf_i (s : State) (c : Bool) : (s.skipIf c).i = s.i := rfl
@[simp] theorem skipIf_pc (s : State) (c : Bool) : (s.skipIf c).pc = if c then s.pc + 2#16 else s.pc := rfl
@[simp] theorem skipIf_stack (s : State) (c : Bool) : (s.skipIf c).stack = s.stack := rfl
@[simp] theorem skipIf_dt (s : State) (c : Bool) : (s.skipIf c).dt = s.dt := rfl
@[simp] theorem skipIf_st (s : State) (c : Bool) : (s.skipIf c).st = s.st := rfl
@[simp] theorem skipIf_fb (s : State) (c : Bool) : (s.skipIf c).fb = s.fb := rfl
@[simp] theorem skipIf_pressed (s : State) (c : Bool) : (s.skipIf c).pressed = s.pressed := rfl
@[simp] theorem skipIf_last (s : State) (c : Bool) : (s.skipIf c).last = s.last := rfl
@[simp] theorem skipIf_run (s : State) (c : Bool) : (s.skipIf c).run = s.run := rfl
@[simp] theorem skipIf_tone (s : State) (c : Bool) : (s.skipIf c).tone = s.tone := rfl
@[simp] theorem skipIf_diag (s : State) (c : Bool) : (s.skipIf c).diag = s.diag := rfl
@[simp] theorem skipIf_params (s : State) (c : Bool) : (s.skipIf c).params = s.params := rfl
@[simp] theorem skipIf_inputs (s : State) (c : Bool) : (s.skipIf c).inputs = s.inputs := rfl
@[simp] theorem skipIf_rounds (s : State) (c : Bool) : (s.skipIf c).rounds = s.rounds := rfl
@[simp] theorem skipIf_draws (s : State) (c : Bool) : (s.skipIf c).draws = s.draws := rfl

/-! ### jump -/

@[simp] theorem jump_mem (s : State) (w : Word) : (s.jump w).mem = s.mem := rfl
@[simp] theorem jump_v (s : State) (w : Word) : (s.jump w).v = s.v := rfl
@[simp] theorem jump_i (s : State) (w : Word) : (s.jump w).i = s.i := rfl
@[simp] theorem jump_pc (s : State) (w : Word) : (s.jump w).pc = w := rfl
@[simp] theorem jump_stack (s : State) (w : Word) : (s.jump w).stack = s.stack := rfl
@[simp] theorem jump_dt (s : State) (w : Word) : (s.jump w).dt = s.dt := rfl
@[simp] theorem jump_st (s : State) (w : Word) : (s.jump w).st = s.st := rfl
@[simp] theorem jump_fb (s : State) (w : Word) : (s.jump w).fb = s.fb := rfl
@[simp] theorem jump_pressed (s : State) (w : Word) : (s.jump w).pressed = s.pressed := rfl
@[simp] theorem jump_last (s : State) (w : Word) : (s.jump w).last = s.last := rfl
@[simp] theorem jump_run (s : State) (w : Word) : (s.jump w).run = s.run := rfl
@[simp] theorem jump_tone (s : State) (w : Word) : (s.jump w).tone = s.tone := rfl
@[simp] theorem jump_diag (s : State) (w : Word) : (s.jump w).diag = s.diag := rfl
@[simp] theorem jump_params (s : State) (w : Word) : (s.jump w).params = s.params := rfl
@[simp] theorem jump_inputs (s : State) (w : Word) : (s.jump w).inputs = s.inputs := rfl
@[simp] theorem jump_rounds (s : State) (w : Word) : (s.jump w).rounds = s.rounds := rfl
@[simp] theorem jump_draws (s : State) (w : Word) : (s.jump w).draws = s.draws := rfl

/-! ### writeI -/

@[simp] theorem writeI_mem (s : State) (w : Word) : (s.writeI w).mem = s.mem := rfl
@[simp] theorem writeI_v (s : State) (w : Word) : (s.writeI w).v = s.v := rfl
@[simp] theorem writeI_i (s : State) (w : Word) : (s.writeI w).i = w := rfl
@[simp] theorem writeI_pc (s : State) (w : Word) : (s.writeI w).pc = s.pc := rfl
@[simp] theorem writeI_stack (s : State) (w : Word) : (s.writeI w).stack = s.stack := rfl
@[simp] theorem writeI_dt (s : State) (w : Word) : (s.writeI w).dt = s.dt := rfl
@[simp] theorem writeI_st (s : State) (w : Word) : (s.writeI w).st = s.st := rfl
@[simp] theorem writeI_fb (s : State) (w : Word) : (s.writeI w).fb = s.fb := rfl
@[simp] theorem writeI_pressed (s : State) (w : Word) : (s.writeI w).pressed = s.pressed := rfl
@[simp] theorem writeI_last (s : State) (w : Word) : (s.writeI w).last = s.last := rfl
@[simp] theorem writeI_run (s : State) (w : Word) : (s.writeI w).run = s.run := rfl
@[simp] theorem writeI_tone (s : State) (w : Word) : (s.writeI w).tone = s.tone := rfl
@[simp] theorem writeI_diag (s : State) (w : Word) : (s.writeI w).diag = s.diag := rfl
@[simp] theorem writeI_params (s : State) (w : Word) : (s.writeI w).params = s.params := rfl
@[simp] theorem writeI_inputs (s : State) (w : Word) : (s.writeI w).inputs = s.inputs := rfl
@[simp] theorem writeI_rounds (s : State) (w : Word) : (s.writeI w).rounds = s.rounds := rfl
@[simp] theorem writeI_draws (s : State) (w : Word) : (s.writeI w).draws = s.draws := rfl

/-! ### writeDt -/

@[simp] theorem writeDt_mem (s : State) (b : Byte) : (s.writeDt b).mem = s.mem := rfl
@[simp] theorem writeDt_v (s : State) (b : Byte) : (s.writeDt b).v = s.v := rfl
@[simp] theorem writeDt_i (s : State) (b : Byte) : (s.writeDt b).i = s.i := rfl
@[simp] theorem writeDt_pc (s : State) (b : Byte) : (s.writeDt b).pc = s.pc := rfl
@[simp] theorem writeDt_stack (s : State) (b : Byte) : (s.writeDt b).stack = s.stack := rfl
@[simp] theorem writeDt_dt (s : State) (b : Byte) : (s.writeDt b).dt = b := rfl
@[simp] theorem writeDt_st (s : State) (b : Byte) : (s.writeDt b).st = s.st := rfl
@[simp] theorem writeDt_fb (s : State) (b : Byte) : (s.writeDt b).fb = s.fb := rfl
@[simp] theorem writeDt_pressed (s : State) (b : Byte) : (s.writeDt b).pressed = s.pressed := rfl
@[simp] theorem writeDt_last (s : State) (b : Byte) : (s.writeDt b).last = s.last := rfl
@[simp] theorem writeDt_run (s : State) (b : Byte) : (s.writeDt b).run = s.run := rfl
@[simp] theorem writeDt_tone (s : State) (b : Byte) : (s.writeDt b).tone = s.tone := rfl
@[simp] theorem writeDt_diag (s : State) (b : Byte) : (s.writeDt b).diag = s.diag := rfl
@[simp] theorem writeDt_params (s : State) (b : Byte) : (s.writeDt b).params = s.params := rfl
@[simp] theorem writeDt_inputs (s : State) (b : Byte) : (s.writeDt b).inputs = s.inputs := rfl
@[simp] theorem writeDt_rounds (s : State) (b : Byte) : (s.writeDt b).rounds = s.rounds := rfl
@[simp] theorem writeDt_draws (s : State) (b : Byte) : (s.writeDt b).draws = s.draws := rfl

/-! ### writeSt -/

@[simp] theorem writeSt_mem (s : State) (b : Byte) : (s.writeSt b).mem = s.mem := rfl
@[simp] theorem writeSt_v (s : State) (b : Byte) : (s.writeSt b).v = s.v := rfl
@[simp] theorem writeSt_i (s : State) (b : Byte) : (s.writeSt b).i = s.i := rfl
@[simp] theorem writeSt_pc (s : State) (b : Byte) : (s.writeSt b).pc = s.pc := rfl
@[simp] theorem writeSt_stack (s : State) (b : Byte) : (s.writeSt b).stack = s.stack := rfl
@[simp] theorem writeSt_dt (s : State) (b : Byte) : (s.writeSt b).dt = s.dt := rfl
@[simp] theorem writeSt_st (s : State) (b : Byte) : (s.writeSt b).st = b := rfl
@[simp] theorem writeSt_fb (s : State) (b : Byte) : (s.writeSt b).fb = s.fb := rfl
@[simp] theorem writeSt_pressed (s : State) (b : Byte) : (s.writeSt b).pressed = s.pressed := rfl
@[simp] theorem writeSt_last (s : State) (b : Byte) : (s.writeSt b).last = s.last := rfl
@[simp] theorem writeSt_run (s : State) (b : Byte) : (s.writeSt b).run = s.run := rfl
@[simp] theorem writeSt_tone (s : State) (b : Byte) : (s.writeSt b).tone = s.tone := rfl
@[simp] theorem writeSt_diag (s : State) (b : Byte) : (s.writeSt b).diag = s.diag := rfl
@[simp] theorem writeSt_params (s : State) (b : Byte) : (s.writeSt b).params = s.params := rfl
@[simp] theorem writeSt_inputs (s : State) (b : Byte) : (s.writeSt b).inputs = s.inputs := rfl
@[simp] theorem writeSt_rounds (s : State) (b : Byte) : (s.writeSt b).rounds = s.rounds := rfl
@[simp] theorem writeSt_draws (s : State) (b : Byte) : (s.writeSt b).draws = s.draws := rfl

/-! ### storeBytes -/

@[simp] theorem storeBytes_mem (s : State) (a : Nat) (bs : List Byte) : (s.storeBytes a bs).mem = Memory.writeBytes s.mem a bs := rfl
@[simp] theorem storeBytes_v (s : State) (a : Nat) (bs : List Byte) : (s.storeBytes a bs).v = s.v := rfl
@[simp] theorem storeBytes_i (s : State) (a : Nat) (bs : List Byte) : (s.storeBytes a bs).i = s.i := rfl
@[simp] theorem storeBytes_pc (s : State) (a : Nat) (bs : List Byte) : (s.storeBytes a bs).pc = s.pc := rfl
@[simp] theorem storeBytes_stack (s : State) (a : Nat) (bs : List Byte) : (s.storeBytes a bs).stack = s.stack := rfl
@[simp] theorem storeBytes_dt (s : State) (a : Nat) (bs : List Byte) : (s.storeBytes a bs).dt = s.dt := rfl
@[simp] theorem storeBytes_st (s : State) (a : Nat) (bs : List Byte) : (s.storeBytes a bs).st = s.st := rfl
@[simp] theorem storeBytes_fb (s : State) (a : Nat) (bs : List Byte) : (s.storeBytes a bs).fb = s.fb := rfl
@[simp] theorem storeBytes_pressed (s : State) (a : Nat) (bs : List Byte) : (s.storeBytes a bs).pressed = s.pressed := rfl
@[simp] theorem storeBytes_last (s : State) (a : Nat) (bs : List Byte) : (s.storeBytes a bs).last = s.last := rfl
@[simp] theorem storeBytes_run (s : State) (a : Nat) (bs : List Byte) : (s.storeBytes a bs).run = s.run := rfl
@[simp] theorem storeBytes_tone (s : State) (a : Nat) (bs : List Byte) : (s.storeBytes a bs).tone = s.tone := rfl
@[simp] theorem storeBytes_diag (s : State) (a : Nat) (bs : List Byte) : (s.storeBytes a bs).diag = s.diag := rfl
@[simp] theorem storeBytes_params (s : State) (a : Nat) (bs : List Byte) : (s.storeBytes a bs).params = s.params := rfl
@[simp] theorem storeBytes_inputs (s : State) (a : Nat) (bs : List Byte) : (s.storeBytes a bs).inputs = s.inputs := rfl
@[simp] theorem storeBytes_rounds (s : State) (a : Nat) (bs : List Byte) : (s.storeBytes a bs).rounds = s.rounds := rfl
@[simp] theorem storeBytes_draws (s : State) (a : Nat) (bs : List Byte) : (s.storeBytes a bs).draws = s.draws := rfl

/-! ### setPressed -/

@[simp] theorem setPressed_mem (s : State) (k : Nibble) (b : Bool) : (s.setPressed k b).mem = s.mem := rfl
@[simp] theorem setPressed_v (s : State) (k : Nibble) (b : Bool) : (s.setPressed k b).v = s.v := rfl
@[simp] theorem setPressed_i (s : State) (k : Nibble) (b : Bool) : (s.setPressed k b).i = s.i := rfl
@[simp] theorem setPressed_pc (s : State) (k : Nibble) (b : Bool) : (s.setPressed k b).pc = s.pc := rfl
@[simp] theorem setPressed_stack (s : State) (k : Nibble) (b : Bool) : (s.setPressed k b).stack = s.stack := rfl
@[simp] theorem setPressed_dt (s : State) (k : Nibble) (b : Bool) : (s.setPressed k b).dt = s.dt := rfl
@[simp] theorem setPressed_st (s : State) (k : Nibble) (b : Bool) : (s.setPressed k b).st = s.st := rfl
@[simp] theorem setPressed_fb (s : State) (k : Nibble) (b : Bool) : (s.setPressed k b).fb = s.fb := rfl
@[simp] theorem setPressed_pressed (s : State) (k : Nibble) (b : Bool) : (s.setPressed k b).pressed = s.pressed.set k.toNat b k.isLt := rfl
@[simp] theorem setPressed_last (s : State) (k : Nibble) (b : Bool) : (s.setPressed k b).last = s.last := rfl
@[simp] theorem setPressed_run (s : State) (k : Nibble) (b : Bool) : (s.setPressed k b).run = s.run := rfl
@[simp] theorem setPressed_tone (s : State) (k : Nibble) (b : Bool) : (s.setPressed k b).tone = s.tone := rfl
@[simp] theorem setPressed_diag (s : State) (k : Nibble) (b : Bool) : (s.setPressed k b).diag = s.diag := rfl
@[simp] theorem setPressed_params (s : State) (k : Nibble) (b : Bool) : (s.setPressed k b).params = s.params := rfl
@[simp] theorem setPressed_inputs (s : State) (k : Nibble) (b : Bool) : (s.setPressed k b).inputs = s.inputs := rfl
@[simp] theorem setPressed_rounds (s : State) (k : Nibble) (b : Bool) : (s.setPressed k b).rounds = s.rounds := rfl
@[simp] theorem setPressed_draws (s : State) (k : Nibble) (b : Bool) : (s.setPressed k b).draws = s.draws := rfl

/-! ### setVf -/

@[simp] theorem setVf_mem (s : State) (c : Bool) : (s.setVf c).mem = s.mem := rfl
@[simp] theorem setVf_v (s : State) (c : Bool) : (s.setVf c).v = s.v.set vf.toNat (if c then 1#8 else 0#8) vf.isLt := rfl
@[simp] theorem setVf_i (s : State) (c : Bool) : (s.setVf c).i = s.i := rfl
@[simp] theorem setVf_pc (s : State) (c : Bool) : (s.setVf c).pc = s.pc := rfl
@[simp] theorem setVf_stack (s : State) (c : Bool) : (s.setVf c).stack = s.stack := rfl
@[simp] theorem setVf_dt (s : State) (c : Bool) : (s.setVf c).dt = s.dt := rfl
@[simp] theorem setVf_st (s : State) (c : Bool) : (s.setVf c).st = s.st := rfl
@[simp] theorem setVf_fb (s : State) (c : Bool) : (s.setVf c).fb = s.fb := rfl
@[simp] theorem setVf_pressed (s : State) (c : Bool) : (s.setVf c).pressed = s.pressed := rfl
@[simp] theorem setVf_last (s : State) (c : Bool) : (s.setVf c).last = s.last := rfl
@[simp] theorem setVf_run (s : State) (c : Bool) : (s.setVf c).run = s.run := rfl
@[simp] theorem setVf_tone (s : State) (c : Bool) : (s.setVf c).tone = s.tone := rfl
@[simp] theorem setVf_diag (s : State) (c : Bool) : (s.setVf c).diag = s.diag := rfl
@[simp] theorem setVf_params (s : State) (c : Bool) : (s.setVf c).params = s.params := rfl
@[simp] theorem setVf_inputs (s : State) (c : Bool) : (s.setVf c).inputs = s.inputs := rfl
@[simp] theorem setVf_rounds (s : State) (c : Bool) : (s.setVf c).rounds = s.rounds := rfl
@[simp] theorem setVf_draws (s : State) (c : Bool) : (s.setVf c).draws = s.draws := rfl

/-! ### countDraw -/

@[simp] theorem countDraw_mem (s : State) : s.countDraw.mem = s.mem := rfl
@[simp] theorem countDraw_v (s : State) : s.countDraw.v = s.v := rfl
@[simp] theorem countDraw_i (s : State) : s.countDraw.i = s.i := rfl
@[simp] theorem countDraw_pc (s : State) : s.countDraw.pc = s.pc := rfl
@[simp] theorem countDraw_stack (s : State) : s.countDraw.stack = s.stack := rfl
@[simp] theorem countDraw_dt (s : State) : s.countDraw.dt = s.dt := rfl
@[simp] theorem countDraw_st (s : State) : s.countDraw.st = s.st := rfl
@[simp] theorem countDraw_fb (s : State) : s.countDraw.fb = s.fb := rfl
@[simp] theorem countDraw_pressed (s : State) : s.countDraw.pressed = s.pressed := rfl
@[simp] theorem countDraw_last (s : State) : s.countDraw.last = s.last := rfl
@[simp] theorem countDraw_run (s : State) : s.countDraw.run = s.run := rfl
@[simp] theorem countDraw_tone (s : State) : s.countDraw.tone = s.tone := rfl
@[simp] theorem countDraw_diag (s : State) : s.countDraw.diag = s.diag := rfl
@[simp] theorem countDraw_params (s : State) : s.countDraw.params = s.params := rfl
@[simp] theorem countDraw_inputs (s : State) : s.countDraw.inputs = s.inputs := rfl
@[simp] theorem countDraw_rounds (s : State) : s.countDraw.rounds = s.rounds := rfl
@[simp] theorem countDraw_draws (s : State) : s.countDraw.draws = s.draws + 1 := rfl

/-! ### enterFault -/

@[simp] theorem enterFault_mem (s : State) (kind : FaultKind) (info : Option Nat) : (s.enterFault kind info).mem = s.mem := rfl
@[simp] theorem enterFault_v (s : State) (kind : FaultKind) (info : Option Nat) : (s.enterFault kind info).v = s.v := rfl
@[simp] theorem enterFault_i (s : State) (kind : FaultKind) (info : Option Nat) : (s.enterFault kind info).i = s.i := rfl
@[simp] theorem enterFault_pc (s : State) (kind : FaultKind) (info : Option Nat) : (s.enterFault kind info).pc = s.pc := rfl
@[simp] theorem enterFault_stack (s : State) (kind : FaultKind) (info : Option Nat) : (s.enterFault kind info).stack = s.stack := rfl
@[simp] theorem enterFault_dt (s : State) (kind : FaultKind) (info : Option Nat) : (s.enterFault kind info).dt = s.dt := rfl
@[simp] theorem enterFault_st (s : State) (kind : FaultKind) (info : Option Nat) : (s.enterFault kind info).st = s.st := rfl
@[simp] theorem enterFault_fb (s : State) (kind : FaultKind) (info : Option Nat) : (s.enterFault kind info).fb = s.fb := rfl
@[simp] theorem enterFault_pressed (s : State) (kind : FaultKind) (info : Option Nat) : (s.enterFault kind info).pressed = s.pressed := rfl
@[simp] theorem enterFault_last (s : State) (kind : FaultKind) (info : Option Nat) : (s.enterFault kind info).last = s.last := rfl
@[simp] theorem enterFault_run (s : State) (kind : FaultKind) (info : Option Nat) : (s.enterFault kind info).run = .faulted kind s.pc := rfl
@[simp] theorem enterFault_tone (s : State) (kind : FaultKind) (info : Option Nat) : (s.enterFault kind info).tone = s.tone := rfl
@[simp] theorem enterFault_diag (s : State) (kind : FaultKind) (info : Option Nat) : (s.enterFault kind info).diag = s.diag ++ [.fault kind s.pc info] := rfl
@[simp] theorem enterFault_params (s : State) (kind : FaultKind) (info : Option Nat) : (s.enterFault kind info).params = s.params := rfl
@[simp] theorem enterFault_inputs (s : State) (kind : FaultKind) (info : Option Nat) : (s.enterFault kind info).inputs = s.inputs := rfl
@[simp] theorem enterFault_rounds (s : State) (kind : FaultKind) (info : Option Nat) : (s.enterFault kind info).rounds = s.rounds := rfl
@[simp] theorem enterFault_draws (s : State) (kind : FaultKind) (info : Option Nat) : (s.enterFault kind info).draws = s.draws := rfl

/-! ### reportUnknown -/

@[simp] theorem reportUnknown_mem (s : State) (w : Word) : (s.reportUnknown w).mem = s.mem := rfl
@[simp] theorem reportUnknown_v (s : State) (w : Word) : (s.reportUnknown w).v = s.v := rfl
@[simp] theorem reportUnknown_i (s : State) (w : Word) : (s.reportUnknown w).i = s.i := rfl
@[simp] theorem reportUnknown_pc (s : State) (w : Word) : (s.reportUnknown w).pc = s.pc + 2#16 := rfl
@[simp] theorem reportUnknown_stack (s : State) (w : Word) : (s.reportUnknown w).stack = s.stack := rfl
@[simp] theorem reportUnknown_dt (s : State) (w : Word) : (s.reportUnknown w).dt = s.dt := rfl
@[simp] theorem reportUnknown_st (s : State) (w : Word) : (s.reportUnknown w).st = s.st := rfl
@[simp] theorem reportUnknown_fb (s : State) (w : Word) : (s.reportUnknown w).fb = s.fb := rfl
@[simp] theorem reportUnknown_pressed (s : State) (w : Word) : (s.reportUnknown w).pressed = s.pressed := rfl
@[simp] theorem reportUnknown_last (s : State) (w : Word) : (s.reportUnknown w).last = s.last := rfl
@[simp] theorem reportUnknown_run (s : State) (w : Word) : (s.reportUnknown w).run = s.run := rfl
@[simp] theorem reportUnknown_tone (s : State) (w : Word) : (s.reportUnknown w).tone = s.tone := rfl
@[simp] theorem reportUnknown_diag (s : State) (w : Word) : (s.reportUnknown w).diag = s.diag ++ [.unknownOpcode s.pc w] := rfl
@[simp] theorem reportUnknown_params (s : State) (w : Word) : (s.reportUnknown w).params = s.params := rfl
@[simp] theorem reportUnknown_inputs (s : State) (w : Word) : (s.reportUnknown w).inputs = s.inputs := rfl
@[simp] theorem reportUnknown_rounds (s : State) (w : Word) : (s.reportUnknown w).rounds = s.rounds := rfl
@[simp] theorem reportUnknown_draws (s : State) (w : Word) : (s.reportUnknown w).draws = s.draws := rfl

/-! ### timerTick -/

@[simp] theorem timerTick_mem (s : State) : s.timerTick.mem = s.mem := rfl
@[simp] theorem timerTick_v (s : State) : s.timerTick.v = s.v := rfl
@[simp] theorem timerTick_i (s : State) : s.timerTick.i = s.i := rfl
@[simp] theorem timerTick_pc (s : State) : s.timerTick.pc = s.pc := rfl
@[simp] theorem timerTick_stack (s : State) : s.timerTick.stack = s.stack := rfl
@[simp] theorem timerTick_dt (s : State) : s.timerTick.dt = if 0 < s.dt.toNat then s.dt - 1#8 else s.dt := rfl
@[simp] theorem timerTick_st (s : State) : s.timerTick.st = if 0 < s.st.toNat then s.st - 1#8 else s.st := rfl
@[simp] theorem timerTick_fb (s : State) : s.timerTick.fb = s.fb := rfl
@[simp] theorem timerTick_pressed (s : State) : s.timerTick.pressed = s.pressed := rfl
@[simp] theorem timerTick_last (s : State) : s.timerTick.last = s.last := rfl
@[simp] theorem timerTick_run (s : State) : s.timerTick.run = s.run := rfl
@[simp] theorem timerTick_tone (s : State) : s.timerTick.tone = decide (0 < s.st.toNat) := rfl
@[simp] theorem timerTick_diag (s : State) : s.timerTick.diag = s.diag := rfl
@[simp] theorem timerTick_params (s : State) : s.timerTick.params = s.params := rfl
@[simp] theorem timerTick_inputs (s : State) : s.timerTick.inputs = s.inputs := rfl
@[simp] theorem timerTick_rounds (s : State) : s.timerTick.rounds = s.rounds := rfl
@[simp] theorem timerTick_draws (s : State) : s.timerTick.draws = s.draws := rfl

/-! ### keyUp -/

@[simp] theorem keyUp_mem (s : State) (k : Nibble) : (s.keyUp k).mem = s.mem := rfl
@[simp] theorem keyUp_v (s : State) (k : Nibble) : (s.keyUp k).v = s.v := rfl
@[simp] theorem keyUp_i (s : State) (k : Nibble) : (s.keyUp k).i = s.i := rfl
@[simp] theorem keyUp_pc (s : State) (k : Nibble) : (s.keyUp k).pc = s.pc := rfl
@[simp] theorem keyUp_stack (s : State) (k : Nibble) : (s.keyUp k).stack = s.stack := rfl
@[simp] theorem keyUp_dt (s : State) (k : Nibble) : (s.keyUp k).dt = s.dt := rfl
@[simp] theorem keyUp_st (s : State) (k : Nibble) : (s.keyUp k).st = s.st := rfl
@[simp] theorem keyUp_fb (s : State) (k : Nibble) : (s.keyUp k).fb = s.fb := rfl
@[simp] theorem keyUp_pressed (s : State) (k : Nibble) : (s.keyUp k).pressed = s.pressed.set k.toNat false k.isLt := rfl
@[simp] theorem keyUp_last (s : State) (k : Nibble) : (s.keyUp k).last = s.last := rfl
@[simp] theorem keyUp_run (s : State) (k : Nibble) : (s.keyUp k).run = s.run := rfl
@[simp] theorem keyUp_tone (s : State) (k : Nibble) : (s.keyUp k).tone = s.tone := rfl
@[simp] theorem keyUp_diag (s : State) (k : Nibble) : (s.keyUp k).diag = s.diag := rfl
@[simp] theorem keyUp_params (s : State) (k : Nibble) : (s.keyUp k).params = s.params := rfl
@[simp] theorem keyUp_inputs (s : State) (k : Nibble) : (s.keyUp k).inputs = s.inputs := rfl
@[simp] theorem keyUp_rounds (s : State) (k : Nibble) : (s.keyUp k).rounds = s.rounds := rfl
@[simp] theorem keyUp_draws (s : State) (k : Nibble) : (s.keyUp k).draws = s.draws := rfl

/-! ### quitNow -/

@[simp] theorem quitNow_mem (s : State) : s.quitNow.mem = s.mem := rfl
@[simp] theorem quitNow_v (s : State) : s.quitNow.v = s.v := rfl
@[simp] theorem quitNow_i (s : State) : s.quitNow.i = s.i := rfl
@[simp] theorem quitNow_pc (s : State) : s.quitNow.pc = s.pc := rfl
@[simp] theorem quitNow_stack (s : State) : s.quitNow.stack = s.stack := rfl
@[simp] theorem quitNow_dt (s : State) : s.quitNow.dt = s.dt := rfl
@[simp] theorem quitNow_st (s : State) : s.quitNow.st = s.st := rfl
@[simp] theorem quitNow_fb (s : State) : s.quitNow.fb = s.fb := rfl
@[simp] theorem quitNow_pressed (s : State) : s.quitNow.pressed = s.pressed := rfl
@[simp] theorem quitNow_last (s : State) : s.quitNow.last = s.last := rfl
@[simp] theorem quitNow_run (s : State) : s.quitNow.run = .quit := rfl
@[simp] theorem quitNow_tone (s : State) : s.quitNow.tone = s.tone := rfl
@[simp] theorem quitNow_diag (s : State) : s.quitNow.diag = s.diag := rfl
@[simp] theorem quitNow_params (s : State) : s.quitNow.params = s.params := rfl
@[simp] theorem quitNow_inputs (s : State) : s.quitNow.inputs = s.inputs := rfl
@[simp] theorem quitNow_rounds (s : State) : s.quitNow.rounds = s.rounds := rfl
@[simp] theorem quitNow_draws (s : State) : s.quitNow.draws = s.draws := rfl

/-! ### dropInput -/

@[simp] theorem dropInput_mem (s : State) : s.dropInput.mem = s.mem := rfl
@[simp] theorem dropInput_v (s : State) : s.dropInput.v = s.v := rfl
@[simp] theorem dropInput_i (s : State) : s.dropInput.i = s.i := rfl
@[simp] theorem dropInput_pc (s : State) : s.dropInput.pc = s.pc := rfl
@[simp] theorem dropInput_stack (s : State) : s.dropInput.stack = s.stack := rfl
@[simp] theorem dropInput_dt (s : State) : s.dropInput.dt = s.dt := rfl
@[simp] theorem dropInput_st (s : State) : s.dropInput.st = s.st := rfl
@[simp] theorem dropInput_fb (s : State) : s.dropInput.fb = s.fb := rfl
@[simp] theorem dropInput_pressed (s : State) : s.dropInput.pressed = s.pressed := rfl
@[simp] theorem dropInput_last (s : State) : s.dropInput.last = s.last := rfl
@[simp] theorem dropInput_run (s : State) : s.dropInput.run = s.run := rfl
@[simp] theorem dropInput_tone (s : State) : s.dropInput.tone = s.tone := rfl
@[simp] theorem dropInput_diag (s : State) : s.dropInput.diag = s.diag := rfl
@[simp] theorem dropInput_params (s : State) : s.dropInput.params = s.params := rfl
@[simp] theorem dropInput_inputs (s : State) : s.dropInput.inputs = s.pending.tail := rfl
@[simp] theorem dropInput_rounds (s : State) : s.dropInput.rounds = match s.inputs with | [] => s.rounds + 1 | _ :: _ => s.rounds := rfl
@[simp] theorem dropInput_draws (s : State) : s.dropInput.draws = s.draws := rfl

end Sys2Proof.Machine
end

