-- ==== Sys2Proof/Laws/Ops.lean ====
section
/-! SUPPORT. What each shared operation can do, once: registers and VF, the stack, the keypad, memory through the state, the
block transfers and the sprite draw. -/

namespace Sys2Proof.Machine

/-! ### Reads depend on one field -/

theorem readV_congr {s t : State} (h : t.v = s.v) (r : Nibble) : t.readV r = s.readV r := by
  simp only [State.readV, h]

theorem readMem_congr {s t : State} (h : t.mem = s.mem) (a : Nat) : t.readMem a = s.readMem a := by
  simp only [State.readMem, h]

theorem pixel_congr {s t : State} (h : t.fb = s.fb) (x y : Nat) : t.pixel x y = s.pixel x y := by
  simp only [State.pixel, h]

theorem isPressed_congr {s t : State} (h : t.pressed = s.pressed) (k : Nibble) : t.isPressed k = s.isPressed k := by
  simp only [State.isPressed, h]

/-! ### Registers -/

theorem nibble_toNat_inj {a b : Nibble} : a.toNat = b.toNat ↔ a = b := BitVec.toNat_inj

theorem readV_writeV (s : State) (x r : Nibble) (b : Byte) :
    (s.writeV x b).readV r = if r = x then b else s.readV r := by
  by_cases h : r = x
  · subst h
    simp [State.readV, State.writeV]
  · have : x.toNat ≠ r.toNat := fun e => h (BitVec.eq_of_toNat_eq e.symm)
    simp [State.readV, State.writeV, h, Vector.getElem_set_ne, this]

@[simp] theorem readV_writeV_self (s : State) (x : Nibble) (b : Byte) : (s.writeV x b).readV x = b := by
  simp [readV_writeV]

theorem readV_writeV_other (s : State) {x r : Nibble} (b : Byte) (h : r ≠ x) :
    (s.writeV x b).readV r = s.readV r := by
  simp [readV_writeV, h]

/-- VF ends as the flag; every other register is as before. -/
theorem readV_setVf (s : State) (c : Bool) (r : Nibble) :
    (s.setVf c).readV r = if r = vf then (if c then 1#8 else 0#8) else s.readV r := readV_writeV _ _ _ _

/-- A flag-setting result: VF is the flag even where it is the destination (R52). -/
theorem readV_writeResult (s : State) (x r : Nibble) (b : Byte) (c : Bool) :
    (s.writeResult x b c).readV r =
      if r = vf then (if c then 1#8 else 0#8) else if r = x then b else s.readV r := by
  simp only [State.writeResult, readV_setVf, readV_writeV]

@[simp] theorem readV_advance (s : State) (r : Nibble) : s.advance.readV r = s.readV r := rfl
@[simp] theorem readV_countDraw (s : State) (r : Nibble) : s.countDraw.readV r = s.readV r := rfl
@[simp] theorem readV_writeI (s : State) (w : Word) (r : Nibble) : (s.writeI w).readV r = s.readV r := rfl
@[simp] theorem readMem_advance (s : State) (a : Nat) : s.advance.readMem a = s.readMem a := rfl
@[simp] theorem pixel_advance (s : State) (x y : Nat) : s.advance.pixel x y = s.pixel x y := rfl
@[simp] theorem isPressed_advance (s : State) (k : Nibble) : s.advance.isPressed k = s.isPressed k := rfl

/-! ### The stack -/

/-- A push succeeds exactly below the depth, and then appends. -/
theorem push_eq (s : State) (w : Word) :
    s.push w = if s.stack.length < s.params.stackDepth then some { s with stack := s.stack ++ [w] } else none := rfl

/-- Below the depth a push appends. -/
theorem push_room {s : State} (w : Word) (h : s.stack.length < s.params.stackDepth) :
    s.push w = some { s with stack := s.stack ++ [w] } := if_pos h

/-- At the depth a push fails. -/
theorem push_full {s : State} (w : Word) (h : s.params.stackDepth ≤ s.stack.length) : s.push w = none :=
  if_neg (Nat.not_lt.mpr h)

theorem pop_nil {s : State} (h : s.stack = []) : s.pop = none := by
  simp [State.pop, h]

/-- A pop gives the newest entry and takes it off. -/
theorem pop_append {s : State} {ws : List Word} {w : Word} (h : s.stack = ws ++ [w]) :
    s.pop = some (w, { s with stack := ws }) := by
  simp [State.pop, h]

/-! ### The keypad -/

theorem isPressed_setPressed (s : State) (k j : Nibble) (b : Bool) :
    (s.setPressed k b).isPressed j = if j = k then b else s.isPressed j := by
  by_cases h : j = k
  · subst h
    simp [State.isPressed, State.setPressed]
  · have : k.toNat ≠ j.toNat := fun e => h (BitVec.eq_of_toNat_eq e.symm)
    simp [State.isPressed, State.setPressed, h, Vector.getElem_set_ne, this]

/-- After a press, only k and the keys that were neither k nor the most-recent one are as they were. -/
theorem isPressed_press (s : State) (k j : Nibble) :
    (s.press k).isPressed j = if j = k then true else if s.last = some j then false else s.isPressed j := by
  unfold State.press
  cases h : s.last with
  | none =>
    show (s.setPressed k true).isPressed j = _
    simp [isPressed_setPressed]
  | some l =>
    show ((s.setPressed l false).setPressed k true).isPressed j = _
    simp only [isPressed_setPressed, Option.some.injEq]
    by_cases hj : j = l
    · simp [hj]
    · simp [hj, Ne.symm hj]

theorem press_fields (s : State) (k : Nibble) :
    (s.press k) = { s with pressed := (s.press k).pressed, last := some k } := by
  unfold State.press
  cases s.last <;> rfl

/-! ### Memory through the state -/

theorem readMem_storeBytes_outside (s : State) (a : Nat) (bs : List Byte) (c : Nat)
    (h : c < a ∨ a + bs.length ≤ c) : (s.storeBytes a bs).readMem c = s.readMem c :=
  read_writeBytes_outside _ _ _ _ h

theorem readMem_storeBytes_inside (s : State) (a : Nat) (bs : List Byte) (hm : Memory.wf s.mem) (k : Nat)
    (hk : k < bs.length) : (s.storeBytes a bs).readMem (a + k) = bs[k] :=
  read_writeBytes_inside _ _ _ hm.1 _ hk

@[simp] theorem bcdDigits_length (b : Byte) : (bcdDigits b).length = 3 := rfl

@[simp] theorem readBlock_length (s : State) (x : Nibble) : (s.readBlock x).length = x.toNat + 1 := by
  simp [State.readBlock, blockLen]

theorem readBlock_getElem (s : State) (x : Nibble) (k : Nat) (h : k < (s.readBlock x).length) :
    (s.readBlock x)[k] = s.readV (BitVec.ofNat 4 k) := by
  simp [State.readBlock]

/-! ### The block load -/

/-- The first n loads of the block: the registers below n hold the bytes, the others are as before, and only V changes. -/
theorem loadLoop (s t : State) (n : Nat) (hn : n ≤ 16) :
    let u := (List.range n).foldl (fun t k => t.writeV (BitVec.ofNat 4 k) (s.readMem (s.i.toNat + k))) t
    (∀ r : Nibble, u.readV r = if r.toNat < n then s.readMem (s.i.toNat + r.toNat) else t.readV r) ∧
      u = { t with v := u.v } := by
  induction n with
  | zero => simp
  | succ n ih =>
    obtain ⟨ih1, ih2⟩ := ih (by omega)
    simp only [List.range_succ, List.foldl_append, List.foldl_cons, List.foldl_nil]
    refine ⟨fun r => ?_, ?_⟩
    · rw [readV_writeV]
      by_cases h : r = BitVec.ofNat 4 n
      · subst h
        have : (BitVec.ofNat 4 n).toNat = n := by simp; omega
        simp [this]
      · have h' : r.toNat ≠ n := by
          rintro rfl
          exact h (by simp)
        rw [if_neg h, ih1]
        by_cases hlt : r.toNat < n
        · rw [if_pos hlt, if_pos (by omega)]
        · rw [if_neg hlt, if_neg (by omega)]
    · conv_lhs => rw [ih2]
      rfl

/-- V[0] to V[x] hold the bytes from I on; the registers above x are as before (R84). -/
theorem readV_loadBlock (s : State) (x r : Nibble) :
    (s.loadBlock x).readV r = if r.toNat ≤ x.toNat then s.readMem (s.i.toNat + r.toNat) else s.readV r := by
  have hx := x.isLt
  rw [State.loadBlock, (loadLoop s s (blockLen x) (by unfold blockLen; omega)).1 r]
  unfold blockLen
  by_cases h : r.toNat ≤ x.toNat
  · rw [if_pos h, if_pos (by omega)]
  · rw [if_neg h, if_neg (by omega)]

/-- The block load changes V alone. -/
theorem loadBlock_fields (s : State) (x : Nibble) : s.loadBlock x = { s with v := (s.loadBlock x).v } := by
  have hx := x.isLt
  exact (loadLoop s s (blockLen x) (by unfold blockLen; omega)).2

end Sys2Proof.Machine
end

