-- ==== Sys2Proof/Laws/Display.lean ====
section
/-! SUPPORT. The sprite draw: which pixels are lit, that each lit pixel turns over once, and the blank screen. -/

namespace Sys2Proof.Machine

@[simp] theorem pixel_blankScreen (x y : Nat) : Framebuffer.pixel blankScreen x y = false := by
  unfold Framebuffer.pixel blankScreen
  split <;> simp

/-- Nothing is on outside the 64 columns and 32 rows. -/
theorem pixel_outside (fb : Framebuffer) {x y : Nat} (h : ¬(x < 64 ∧ y < 32)) : Framebuffer.pixel fb x y = false := by
  unfold Framebuffer.pixel
  split
  · next hy =>
    have hx : 64 ≤ x := by omega
    exact BitVec.getMsbD_of_ge _ _ hx
  · rfl

/-- Turning a pixel over changes that pixel alone. -/
theorem pixel_flipPixel (fb : Framebuffer) (p : Nat × Nat) (x y : Nat) :
    Framebuffer.pixel (Framebuffer.flipPixel fb p) x y =
      if p = (x, y) ∧ x < 64 ∧ y < 32 then !Framebuffer.pixel fb x y else Framebuffer.pixel fb x y := by
  obtain ⟨px, py⟩ := p
  by_cases hb : x < 64 ∧ y < 32
  · obtain ⟨hx, hy⟩ := hb
    unfold Framebuffer.flipPixel
    by_cases hp : py < 32 ∧ px < 64
    · rw [dif_pos hp]
      by_cases hpy : py = y
      · subst hpy
        by_cases hpx : px = x
        · subst hpx
          have hlt : 63 - px < 64 := by omega
          simp [Framebuffer.pixel, hx, hy, BitVec.getMsbD_eq_getLsbD, hlt]
        · have : 63 - px ≠ 63 - x := by omega
          simp [Framebuffer.pixel, hx, hy, BitVec.getMsbD_eq_getLsbD, hpx, this]
      · simp [Framebuffer.pixel, hx, hy, Vector.getElem_set_ne, hpy]
    · rw [dif_neg hp, if_neg]
      simp only [Prod.mk.injEq]
      omega
  · rw [pixel_outside _ hb, pixel_outside _ hb, if_neg]
    tauto

/-- After turning a list of distinct pixels over, a pixel has changed exactly if it is in the list. -/
theorem pixel_foldl_flipPixel (l : List (Nat × Nat)) (hl : l.Nodup) (fb : Framebuffer) (x y : Nat)
    (hx : x < 64) (hy : y < 32) :
    Framebuffer.pixel (l.foldl Framebuffer.flipPixel fb) x y = (Framebuffer.pixel fb x y != decide ((x, y) ∈ l)) := by
  induction l generalizing fb with
  | nil => simp
  | cons p l ih =>
    rw [List.nodup_cons] at hl
    rw [List.foldl_cons, ih hl.2, pixel_flipPixel]
    by_cases hp : p = (x, y)
    · subst hp
      simp [hl.1, hx, hy]
    · have hp' : ¬((x, y) = p) := fun e => hp e.symm
      simp [hp, hp']

/-- The lit pixels are the 1 bits of the sprite inside the clipped rectangle (R86). -/
theorem mem_litPixels (sprite : List Byte) (sx sy x y : Nat) :
    (x, y) ∈ litPixels sprite sx sy ↔
      sx ≤ x ∧ x < sx + 8 ∧ x < 64 ∧ sy ≤ y ∧ y < sy + sprite.length ∧ y < 32 ∧
        (sprite.getD (y - sy) 0#8).getLsbD (7 - (x - sx)) = true := by
  simp only [litPixels, List.mem_flatMap, List.mem_range, List.mem_map, List.mem_filter, Bool.and_eq_true,
    Config.displayW, Config.displayH, Prod.mk.injEq]
  constructor
  · rintro ⟨r, hr, c, ⟨hc, ⟨hb, hx⟩, hy⟩, rfl, rfl⟩
    replace hx := of_decide_eq_true hx
    replace hy := of_decide_eq_true hy
    refine ⟨by omega, by omega, hx, by omega, by omega, hy, ?_⟩
    simpa using hb
  · rintro ⟨h1, h2, h3, h4, h5, h6, h7⟩
    exact ⟨y - sy, by omega, x - sx, ⟨by omega, ⟨h7, decide_eq_true (by omega)⟩, decide_eq_true (by omega)⟩, by omega, by omega⟩

theorem litPixels_nodup (sprite : List Byte) (sx sy : Nat) : (litPixels sprite sx sy).Nodup := by
  unfold litPixels
  rw [List.nodup_flatMap]
  refine ⟨fun r _ => ?_, ?_⟩
  · refine List.Nodup.map (fun a b h => ?_) (List.nodup_range.filter _)
    simp only [Prod.mk.injEq] at h
    omega
  · refine List.nodup_range.imp fun {r r'} hne => ?_
    simp only [Function.onFun, List.disjoint_left, List.mem_map]
    rintro p ⟨c, -, rfl⟩ ⟨c', -, h⟩
    simp only [Prod.mk.injEq] at h
    omega

/-- A draw turns exactly the lit pixels over (R86). -/
theorem pixel_drawSprite (fb : Framebuffer) (sprite : List Byte) (sx sy x y : Nat) :
    Framebuffer.pixel (drawSprite fb sprite sx sy) x y =
      (Framebuffer.pixel fb x y != decide ((x, y) ∈ litPixels sprite sx sy)) := by
  by_cases hb : x < 64 ∧ y < 32
  · exact pixel_foldl_flipPixel _ (litPixels_nodup _ _ _) _ _ _ hb.1 hb.2
  · have : (x, y) ∉ litPixels sprite sx sy := by
      rw [mem_litPixels]
      omega
    simp [pixel_outside _ hb, this]

/-- The collision flag: some lit pixel was on (R86). -/
theorem collisionFlag_iff (fb : Framebuffer) (sprite : List Byte) (sx sy : Nat) :
    collisionFlag fb sprite sx sy = true ↔
      ∃ x y, (x, y) ∈ litPixels sprite sx sy ∧ Framebuffer.pixel fb x y = true := by
  simp [collisionFlag]

/-- Two framebuffers with the same pixels are equal. -/
theorem framebuffer_ext {f g : Framebuffer}
    (h : ∀ x y, x < 64 → y < 32 → Framebuffer.pixel f x y = Framebuffer.pixel g x y) : f = g := by
  apply Vector.ext
  intro y hy
  apply BitVec.eq_of_getMsbD_eq
  intro x hx
  have := h x y hx hy
  simpa [Framebuffer.pixel, hy] using this

/-- The row byte of a sprite. -/
theorem readSprite_getD (s : State) (n : Nibble) (k : Nat) (hk : k < n.toNat) :
    (s.readSprite n).getD k 0#8 = s.readMem (s.i.toNat + k) := by
  simp [State.readSprite, Memory.readBytes, State.readMem, hk]

@[simp] theorem readSprite_length (s : State) (n : Nibble) : (s.readSprite n).length = n.toNat := by
  simp [State.readSprite]

end Sys2Proof.Machine
end

