-- ==== Sys2Proof/Laws/Frame.lean ====
section
/-! SUPPORT. The frame from the fields: a step that leaves the fields of every other piece alone has the frame. -/

namespace Sys2Proof.Machine

/-- A field-by-field frame is a frame: equal fields read equal. -/
theorem frame_of_fields {s t : State} {regs : List Nibble} {parts : List Part}
    (hv : ∀ r, r ∉ regs → t.readV r = s.readV r)
    (index : .index ∉ parts → t.i = s.i) (stack : .stack ∉ parts → t.stack = s.stack)
    (delay : .delayTimer ∉ parts → t.dt = s.dt) (sound : .soundTimer ∉ parts → t.st = s.st)
    (screen : .screen ∉ parts → t.fb = s.fb) (memory : .memory ∉ parts → t.mem = s.mem)
    (pressed : .pressed ∉ parts → t.pressed = s.pressed) (last : .last ∉ parts → t.last = s.last)
    (run : .run ∉ parts → t.run = s.run) (tone : .tone ∉ parts → t.tone = s.tone)
    (diag : .diag ∉ parts → t.diag = s.diag) (params : .params ∉ parts → t.params = s.params)
    (inputs : .inputs ∉ parts → t.inputs = s.inputs) (rounds : .rounds ∉ parts → t.rounds = s.rounds)
    (draws : .draws ∉ parts → t.draws = s.draws) :
    Frame regs parts s t := by
  refine ⟨hv, fun p hp => ?_⟩
  cases p with
  | index => exact index hp
  | stack => exact stack hp
  | delayTimer => exact delay hp
  | soundTimer => exact sound hp
  | screen => exact pixel_congr (screen hp)
  | memory => exact readMem_congr (memory hp)
  | pressed => exact isPressed_congr (pressed hp)
  | last => exact last hp
  | run => exact run hp
  | tone => exact tone hp
  | diag => exact diag hp
  | params => exact params hp
  | inputs => exact inputs hp
  | rounds => exact rounds hp
  | draws => exact draws hp

end Sys2Proof.Machine
end

