-- ==== Sys2Proof/Laws/PerInstr.lean ====
section
/-! SUPPORT. The per-instruction family SelectsRow (spec/30_encoding.md R45): the word of an instruction selects the
instruction's own row of the opcode table. -/

namespace Sys2Proof.Laws.SelectsRow

/-- The encoded word, under the row's mask, is the row's match. -/
def Statement (i : Instr) : Prop := encodeWord i &&& rowMask i = rowMatch i

/-- A word of four nibbles under a mask of four nibbles. -/
theorem and_nibbles (a b c d p q r t : Nibble) :
    (a ++ b ++ c ++ d : Word) &&& (p ++ q ++ r ++ t : Word) = (a &&& p) ++ (b &&& q) ++ (c &&& r) ++ (d &&& t) := by
  simp only [BitVec.and_append]

/-- A word op, x, nn under a mask. -/
theorem and_opXNn (a b p q : Nibble) (c r : Byte) :
    (a ++ b ++ c : Word) &&& (p ++ q ++ r : Word) = (a &&& p) ++ (b &&& q) ++ (c &&& r) := by
  simp only [BitVec.and_append]

/-- A word op, nnn under a mask. -/
theorem and_opNnn (a p : Nibble) (c r : Addr12) : (a ++ c : Word) &&& (p ++ r : Word) = (a &&& p) ++ (c &&& r) := by
  simp only [BitVec.and_append]

theorem cls : Statement (.cls) := rfl

theorem ret : Statement (.ret) := rfl

theorem jp (nnn : Addr12) : Statement (.jp nnn) := by
  show encodeWord (.jp nnn) &&& (0xF#4 ++ 0x000#12 : Word) = _
  simp only [encodeWord, and_opNnn, BitVec.and_zero]
  rfl

theorem call (nnn : Addr12) : Statement (.call nnn) := by
  show encodeWord (.call nnn) &&& (0xF#4 ++ 0x000#12 : Word) = _
  simp only [encodeWord, and_opNnn, BitVec.and_zero]
  rfl

theorem seImm (x : Nibble) (nn : Byte) : Statement (.seImm x nn) := by
  show encodeWord (.seImm x nn) &&& (0xF#4 ++ 0x0#4 ++ 0x00#8 : Word) = _
  simp only [encodeWord, and_opXNn, BitVec.and_zero]
  rfl

theorem sneImm (x : Nibble) (nn : Byte) : Statement (.sneImm x nn) := by
  show encodeWord (.sneImm x nn) &&& (0xF#4 ++ 0x0#4 ++ 0x00#8 : Word) = _
  simp only [encodeWord, and_opXNn, BitVec.and_zero]
  rfl

theorem seReg (x : Nibble) (y : Nibble) : Statement (.seReg x y) := by
  show encodeWord (.seReg x y) &&& (0xF#4 ++ 0x0#4 ++ 0x0#4 ++ 0xF#4 : Word) = _
  simp only [encodeWord, and_nibbles, BitVec.and_zero]
  rfl

theorem ldImm (x : Nibble) (nn : Byte) : Statement (.ldImm x nn) := by
  show encodeWord (.ldImm x nn) &&& (0xF#4 ++ 0x0#4 ++ 0x00#8 : Word) = _
  simp only [encodeWord, and_opXNn, BitVec.and_zero]
  rfl

theorem addImm (x : Nibble) (nn : Byte) : Statement (.addImm x nn) := by
  show encodeWord (.addImm x nn) &&& (0xF#4 ++ 0x0#4 ++ 0x00#8 : Word) = _
  simp only [encodeWord, and_opXNn, BitVec.and_zero]
  rfl

theorem ldReg (x : Nibble) (y : Nibble) : Statement (.ldReg x y) := by
  show encodeWord (.ldReg x y) &&& (0xF#4 ++ 0x0#4 ++ 0x0#4 ++ 0xF#4 : Word) = _
  simp only [encodeWord, and_nibbles, BitVec.and_zero]
  rfl

theorem orReg (x : Nibble) (y : Nibble) : Statement (.orReg x y) := by
  show encodeWord (.orReg x y) &&& (0xF#4 ++ 0x0#4 ++ 0x0#4 ++ 0xF#4 : Word) = _
  simp only [encodeWord, and_nibbles, BitVec.and_zero]
  rfl

theorem andReg (x : Nibble) (y : Nibble) : Statement (.andReg x y) := by
  show encodeWord (.andReg x y) &&& (0xF#4 ++ 0x0#4 ++ 0x0#4 ++ 0xF#4 : Word) = _
  simp only [encodeWord, and_nibbles, BitVec.and_zero]
  rfl

theorem xorReg (x : Nibble) (y : Nibble) : Statement (.xorReg x y) := by
  show encodeWord (.xorReg x y) &&& (0xF#4 ++ 0x0#4 ++ 0x0#4 ++ 0xF#4 : Word) = _
  simp only [encodeWord, and_nibbles, BitVec.and_zero]
  rfl

theorem addReg (x : Nibble) (y : Nibble) : Statement (.addReg x y) := by
  show encodeWord (.addReg x y) &&& (0xF#4 ++ 0x0#4 ++ 0x0#4 ++ 0xF#4 : Word) = _
  simp only [encodeWord, and_nibbles, BitVec.and_zero]
  rfl

theorem subReg (x : Nibble) (y : Nibble) : Statement (.subReg x y) := by
  show encodeWord (.subReg x y) &&& (0xF#4 ++ 0x0#4 ++ 0x0#4 ++ 0xF#4 : Word) = _
  simp only [encodeWord, and_nibbles, BitVec.and_zero]
  rfl

theorem shr (x : Nibble) (y : Nibble) : Statement (.shr x y) := by
  show encodeWord (.shr x y) &&& (0xF#4 ++ 0x0#4 ++ 0x0#4 ++ 0xF#4 : Word) = _
  simp only [encodeWord, and_nibbles, BitVec.and_zero]
  rfl

theorem subnReg (x : Nibble) (y : Nibble) : Statement (.subnReg x y) := by
  show encodeWord (.subnReg x y) &&& (0xF#4 ++ 0x0#4 ++ 0x0#4 ++ 0xF#4 : Word) = _
  simp only [encodeWord, and_nibbles, BitVec.and_zero]
  rfl

theorem shl (x : Nibble) (y : Nibble) : Statement (.shl x y) := by
  show encodeWord (.shl x y) &&& (0xF#4 ++ 0x0#4 ++ 0x0#4 ++ 0xF#4 : Word) = _
  simp only [encodeWord, and_nibbles, BitVec.and_zero]
  rfl

theorem sneReg (x : Nibble) (y : Nibble) : Statement (.sneReg x y) := by
  show encodeWord (.sneReg x y) &&& (0xF#4 ++ 0x0#4 ++ 0x0#4 ++ 0xF#4 : Word) = _
  simp only [encodeWord, and_nibbles, BitVec.and_zero]
  rfl

theorem ldI (nnn : Addr12) : Statement (.ldI nnn) := by
  show encodeWord (.ldI nnn) &&& (0xF#4 ++ 0x000#12 : Word) = _
  simp only [encodeWord, and_opNnn, BitVec.and_zero]
  rfl

theorem jpV0 (nnn : Addr12) : Statement (.jpV0 nnn) := by
  show encodeWord (.jpV0 nnn) &&& (0xF#4 ++ 0x000#12 : Word) = _
  simp only [encodeWord, and_opNnn, BitVec.and_zero]
  rfl

theorem rnd (x : Nibble) (nn : Byte) : Statement (.rnd x nn) := by
  show encodeWord (.rnd x nn) &&& (0xF#4 ++ 0x0#4 ++ 0x00#8 : Word) = _
  simp only [encodeWord, and_opXNn, BitVec.and_zero]
  rfl

theorem drw (x : Nibble) (y : Nibble) (n : Nibble) : Statement (.drw x y n) := by
  show encodeWord (.drw x y n) &&& (0xF#4 ++ 0x0#4 ++ 0x0#4 ++ 0x0#4 : Word) = _
  simp only [encodeWord, and_nibbles, BitVec.and_zero]
  rfl

theorem skp (x : Nibble) : Statement (.skp x) := by
  show encodeWord (.skp x) &&& (0xF#4 ++ 0x0#4 ++ 0xFF#8 : Word) = _
  simp only [encodeWord, and_opXNn, BitVec.and_zero]
  rfl

theorem sknp (x : Nibble) : Statement (.sknp x) := by
  show encodeWord (.sknp x) &&& (0xF#4 ++ 0x0#4 ++ 0xFF#8 : Word) = _
  simp only [encodeWord, and_opXNn, BitVec.and_zero]
  rfl

theorem ldVDt (x : Nibble) : Statement (.ldVDt x) := by
  show encodeWord (.ldVDt x) &&& (0xF#4 ++ 0x0#4 ++ 0xFF#8 : Word) = _
  simp only [encodeWord, and_opXNn, BitVec.and_zero]
  rfl

theorem ldK (x : Nibble) : Statement (.ldK x) := by
  show encodeWord (.ldK x) &&& (0xF#4 ++ 0x0#4 ++ 0xFF#8 : Word) = _
  simp only [encodeWord, and_opXNn, BitVec.and_zero]
  rfl

theorem ldDtV (x : Nibble) : Statement (.ldDtV x) := by
  show encodeWord (.ldDtV x) &&& (0xF#4 ++ 0x0#4 ++ 0xFF#8 : Word) = _
  simp only [encodeWord, and_opXNn, BitVec.and_zero]
  rfl

theorem ldStV (x : Nibble) : Statement (.ldStV x) := by
  show encodeWord (.ldStV x) &&& (0xF#4 ++ 0x0#4 ++ 0xFF#8 : Word) = _
  simp only [encodeWord, and_opXNn, BitVec.and_zero]
  rfl

theorem addI (x : Nibble) : Statement (.addI x) := by
  show encodeWord (.addI x) &&& (0xF#4 ++ 0x0#4 ++ 0xFF#8 : Word) = _
  simp only [encodeWord, and_opXNn, BitVec.and_zero]
  rfl

theorem ldF (x : Nibble) : Statement (.ldF x) := by
  show encodeWord (.ldF x) &&& (0xF#4 ++ 0x0#4 ++ 0xFF#8 : Word) = _
  simp only [encodeWord, and_opXNn, BitVec.and_zero]
  rfl

theorem ldB (x : Nibble) : Statement (.ldB x) := by
  show encodeWord (.ldB x) &&& (0xF#4 ++ 0x0#4 ++ 0xFF#8 : Word) = _
  simp only [encodeWord, and_opXNn, BitVec.and_zero]
  rfl

theorem ldMemV (x : Nibble) : Statement (.ldMemV x) := by
  show encodeWord (.ldMemV x) &&& (0xF#4 ++ 0x0#4 ++ 0xFF#8 : Word) = _
  simp only [encodeWord, and_opXNn, BitVec.and_zero]
  rfl

theorem ldVMem (x : Nibble) : Statement (.ldVMem x) := by
  show encodeWord (.ldVMem x) &&& (0xF#4 ++ 0x0#4 ++ 0xFF#8 : Word) = _
  simp only [encodeWord, and_opXNn, BitVec.and_zero]
  rfl

end Sys2Proof.Laws.SelectsRow
end

