-- ==== Sys2Proof/Laws/Ports.lean ====
section
/-! SUPPORT. Load: when a program fits, and what each answer is. -/

namespace Sys2Proof.Machine

/-- A program fits exactly when it has at most MAX_PROGRAM bytes (R117, R118). -/
theorem programFits_iff (program : List Byte) : programFits program = true ↔ program.length ≤ Config.maxProgram := by
  unfold programFits
  rw [decide_eq_true_iff]
  simp only [Config.progBase, Config.memSize, Config.maxProgram]
  omega

/-- A program that fits is loaded. -/
theorem load_fits {program : List Byte} (s : State) (h : program.length ≤ Config.maxProgram) :
    load program s = .next { State.reset with
      mem := Memory.writeBytes State.reset.mem Config.progBase program
      params := s.params
      inputs := s.inputs
      rounds := s.rounds
      draws := s.draws } :=
  if_pos ((programFits_iff program).2 h)

/-- A longer program is not. -/
theorem load_tooLarge {program : List Byte} (s : State) (h : Config.maxProgram < program.length) :
    load program s = .fault (.programTooLarge program.length) :=
  if_neg fun e => Nat.not_le.mpr h ((programFits_iff program).1 e)

/-- Memory lists nothing at reset and is in canonical form. -/
theorem reset_mem_wf : Memory.wf State.reset.mem := by decide

end Sys2Proof.Machine
end

