-- ==== Sys2Proof/Laws/Step.lean ====
section
/-! SUPPORT. The step, said once: the fetch, what a live block's step is, and everything a step or a CPU step can do. -/

namespace Sys2Proof.Machine

/-! ### Fetch -/

/-- Below 0xFFF the fetch reads the big-endian word at PC (R32). -/
theorem fetch16_some {s : State} (h : s.pc.toNat + 1 < 0x1000) :
    s.fetch16 = some (bigEndian (s.readMem s.pc.toNat) (s.readMem (s.pc.toNat + 1))) := by
  unfold State.fetch16
  rw [if_neg]
  simp only [Config.memSize]
  omega

/-- At 0xFFF and above the fetch fails (R32). -/
theorem fetch16_none {s : State} (h : 0x1000 ≤ s.pc.toNat + 1) : s.fetch16 = none := by
  unfold State.fetch16
  exact if_pos h

/-- A fetch that gives a word was below 0xFFF. -/
theorem pc_lt_of_fetch16 {s : State} {w : Word} (h : s.fetch16 = some w) : s.pc.toNat + 1 < 0x1000 := by
  by_contra hc
  rw [fetch16_none (by omega)] at h
  cases h

/-- Two bytes decode to an instruction exactly when their word does. -/
theorem decode_pair {hi lo : Byte} {i : Instr} :
    decode [hi, lo] = .ok (i, []) ↔ decodeWord (bigEndian hi lo) = .ok i := by
  simp only [decode]
  cases decodeWord (bigEndian hi lo) <;> simp

/-! ### The step of a live block -/

theorem live_of_running {s : State} (h : s.run = .running) : s.live := .inl h
theorem live_of_waitKey {s : State} {x : Nibble} (h : s.run = .waitKey x) : s.live := .inr ⟨x, h⟩

/-! ### The inputs -/

/-- Some event is always on its way. -/
theorem pending_eq (s : State) : s.pending = s.nextInput :: s.dropInput.inputs := by
  have h : s.pending ≠ [] := by
    unfold State.pending arrivalRound
    split <;> simp
  rw [dropInput_inputs]
  unfold State.nextInput
  cases hp : s.pending with
  | nil => exact absurd hp h
  | cons e rest => rfl

/-- While `inputs` lists an event, that event is next and no free round is taken. -/
theorem inputs_cons {s : State} {e : Input} {rest : List Input} (h : s.inputs = e :: rest) :
    s.nextInput = e ∧ s.dropInput = { s with inputs := rest } := by
  unfold State.nextInput State.dropInput State.pending
  simp only [h, List.headD_cons, List.tail_cons, and_self]

/-- When `inputs` has run out, the next free round is taken. -/
theorem inputs_nil {s : State} (h : s.inputs = []) :
    s.pending = arrivalRound s.rounds ∧ s.dropInput.rounds = s.rounds + 1 := by
  rw [dropInput_rounds]
  unfold State.pending
  simp only [h, and_self]

/-- Any list of events that holds a timer tick, closed by a cycle strobe, has the form of a free round (R104). -/
theorem segment_is_round {l : List Input} (h : .timerTick ∈ l) :
    ∃ before between, l ++ [.cycle] = before ++ .timerTick :: (between ++ [.cycle]) := by
  obtain ⟨before, between, rfl⟩ := List.append_of_mem h
  exact ⟨before, between, by simp⟩

/-- A live block takes the step that the next input enables. -/
theorem step_live {s : State} (h : s.live) : step s = agentStep s.nextInput s.dropInput := by
  unfold step boundaryStep
  rcases h with h | ⟨x, h⟩ <;> rw [h]

/-- A live block with an event at the head of its inputs takes that event's step. -/
theorem step_event {s : State} {e : Input} {rest : List Input} (h : s.live) (hi : s.inputs = e :: rest) :
    step s = agentStep e { s with inputs := rest } := by
  rw [step_live h, (inputs_cons hi).1, (inputs_cons hi).2]

/-- A running block whose next input is the cycle strobe takes a CPU step. -/
theorem step_cycle {s : State} (h : s.run = .running) (hn : s.nextInput = .cycle) : step s = cpuStep s.dropInput := by
  rw [step_live (live_of_running h), hn]
  simp only [agentStep, dropInput_run, h]

/-- Faulted and Quit have no step. -/
theorem live_of_step {s t : State} (h : step s = .next t) : s.live := by
  unfold step boundaryStep at h
  split at h
  · cases h
  · cases h
  · exact live_of_running ‹_›
  · exact live_of_waitKey ‹_›

/-- Everything a CPU step that answers a next state can have done: a fetch fault, an instruction, or an unknown word. -/
theorem cpuStep_cases {s t : State} (h : cpuStep s = .next t) :
    (s.fetch16 = none ∧ t = s.enterFault .memoryFault (some s.pc.toNat)) ∨
      (∃ w i u, s.fetch16 = some w ∧ decodeWord w = .ok i ∧ exec i s = .next u ∧ t = u.quirkTick) ∨
      (∃ w e, s.fetch16 = some w ∧ decodeWord w = .error e ∧ t = (s.reportUnknown w).quirkTick) := by
  unfold cpuStep at h
  split at h
  · cases h
    exact .inl ⟨‹_›, rfl⟩
  · next w hw =>
    split at h
    · next i hi =>
      cases he : exec i s with
      | next u =>
        rw [he] at h
        cases h
        exact .inr (.inl ⟨w, i, u, hw, hi, he, rfl⟩)
      | fault f => rw [he] at h; cases h
      | refused r => rw [he] at h; cases h
    · next e he =>
      cases h
      exact .inr (.inr ⟨w, e, hw, he, rfl⟩)

/-- Everything a step that answers a next state can have done, by the input that enabled it. -/
theorem step_cases {s t : State} (h : step s = .next t) : s.live ∧
    ((s.nextInput = .cycle ∧ s.run = .running ∧ cpuStep s.dropInput = .next t) ∨
      (∃ x, s.nextInput = .cycle ∧ s.run = .waitKey x ∧ t = s.dropInput) ∨
      (s.nextInput = .timerTick ∧ t = s.dropInput.freeTick) ∨
      (∃ k, s.nextInput = .keyDown k ∧ t = s.dropInput.keyDown k) ∨
      (∃ k, s.nextInput = .keyUp k ∧ t = s.dropInput.keyUp k) ∨
      (s.nextInput = .quit ∧ t = s.dropInput.quitNow)) := by
  have hl := live_of_step h
  refine ⟨hl, ?_⟩
  rw [step_live hl] at h
  cases hn : s.nextInput with
  | cycle =>
    rw [hn] at h
    rcases hl with hr | ⟨x, hr⟩
    · simp only [agentStep, dropInput_run, hr] at h
      exact .inl ⟨rfl, hr, h⟩
    · simp only [agentStep, dropInput_run, hr] at h
      cases h
      exact .inr (.inl ⟨x, rfl, hr, rfl⟩)
  | timerTick => rw [hn] at h; cases h; exact .inr (.inr (.inl ⟨rfl, rfl⟩))
  | keyDown k => rw [hn] at h; cases h; exact .inr (.inr (.inr (.inl ⟨k, rfl, rfl⟩)))
  | keyUp k => rw [hn] at h; cases h; exact .inr (.inr (.inr (.inr (.inl ⟨k, rfl, rfl⟩))))
  | quit => rw [hn] at h; cases h; exact .inr (.inr (.inr (.inr (.inr ⟨rfl, rfl⟩))))

/-- The tick of the quirk happens or does not; it never changes run. -/
theorem quirkTick_cases (s : State) : s.quirkTick = s ∨ s.quirkTick = s.timerTick := by
  unfold State.quirkTick
  split
  · exact .inr rfl
  · exact .inl rfl

/-- By default no tick is tied to an instruction (R104). -/
theorem quirkTick_off {s : State} (h : s.params.quirkTimerPerInstruction = false) : s.quirkTick = s := by
  simp [State.quirkTick, h]

/-- While Running a key-down is the press alone (R108). -/
theorem keyDown_running {s : State} (k : Nibble) (h : s.run = .running) : s.keyDown k = s.press k := by
  unfold State.keyDown
  split <;> first | rfl | (rw [h] at *; contradiction)

/-- With QUIRK_TIMER_PER_INSTRUCTION true, the tick follows while the block runs (R104). -/
theorem quirkTick_on {s : State} (hq : s.params.quirkTimerPerInstruction = true) (hr : s.run = .running) :
    s.quirkTick = s.timerTick := by
  unfold State.quirkTick
  rw [hq, hr]
  rfl

/-- KeyDown while FX0A waits, for either value of the parameter (R108, R93, R104). -/
theorem keyDown_completes {s : State} {x : Nibble} (k : Nibble) (h : s.run = .waitKey x) :
    s.keyDown k = State.quirkTick { (s.press k).writeV x (BitVec.ofNat 8 k.toNat) with run := .running } := by
  unfold State.keyDown
  split
  · next y hy =>
    rw [h] at hy
    cases hy
    rfl
  all_goals (rw [h] at *; contradiction)

/-- While FX0A waits a key-down is the press and the completion of the wait (R93, R108). -/
theorem keyDown_waitKey {s : State} {x : Nibble} (k : Nibble) (h : s.run = .waitKey x)
    (hq : s.params.quirkTimerPerInstruction = false) :
    s.keyDown k = { (s.press k).writeV x (BitVec.ofNat 8 k.toNat) with run := .running } := by
  unfold State.keyDown
  split
  · next y hy =>
    rw [h] at hy
    cases hy
    apply quirkTick_off
    show ((s.press k).writeV x (BitVec.ofNat 8 k.toNat)).params.quirkTimerPerInstruction = false
    rw [writeV_params, press_fields]
    exact hq
  all_goals (rw [h] at *; contradiction)

end Sys2Proof.Machine
end

