-- ==== Sys2Proof/Tests/Slice0.lean ====
section
/-! SUPPORT. The model's own tests: the ill-formed terms, a word for every constructor, the vectors of
spec/95_test_vectors.md (named V<section> <case> below) on one instruction each, and the witnesses of the statements'
hypotheses. -/

namespace Sys2Proof.Tests
open Sys2Proof Sys2Proof.Machine

/-! ### Small states -/

/-- The next state of an answer. -/
def nextOf : Answer → Option State
  | .next t => some t
  | .fault _ => none
  | .refused _ => none

/-- A field of the next state. -/
def after {α : Type} (a : Answer) (f : State → α) : Option α := (nextOf a).map f

/-- State.reset with V[x] = a. -/
def with1 (x : Nibble) (a : Byte) : State := State.reset.writeV x a

/-- State.reset with V[x] = a and V[y] = b. -/
def with2 (x : Nibble) (a : Byte) (y : Nibble) (b : Byte) : State := (with1 x a).writeV y b

/-- I = w and the bytes `bs` there. -/
def withMem (s : State) (w : Word) (bs : List Byte) : State := (s.writeI w).storeBytes w.toNat bs

/-- A state whose next input is the cycle strobe. -/
def strobed (s : State) : State := { s with inputs := [.cycle] }

/-! ### Ill-formed terms are refused -/

theorem test_depth_15_is_ill_formed : ({ Params.default with stackDepth := 15 } : Params).wellFormed = false := by decide

theorem test_default_params_are_well_formed : Params.default.wellFormed = true := by decide

theorem test_program_of_3585_bytes_does_not_fit : programFits (List.replicate 3585 0#8) = false := by
  rw [← Bool.not_eq_true, programFits_iff, List.length_replicate]
  decide

theorem test_program_of_3584_bytes_fits : programFits (List.replicate 3584 0#8) = true := by
  rw [programFits_iff, List.length_replicate]
  decide

/-! ### Decoding: a word for every constructor, written bit by bit from the encodings of R46 -/

theorem test_decode_flow :
    decodeWord 0b0000000011100000#16 = .ok .cls ∧ decodeWord 0b0000000011101110#16 = .ok .ret ∧
    decodeWord 0b0001101010111100#16 = .ok (.jp 0xABC#12) ∧ decodeWord 0b0010010001010110#16 = .ok (.call 0x456#12) ∧
    decodeWord 0b0011101001000010#16 = .ok (.seImm 0xA#4 0x42#8) ∧
    decodeWord 0b0100101001000010#16 = .ok (.sneImm 0xA#4 0x42#8) ∧
    decodeWord 0b0101000100100000#16 = .ok (.seReg 1#4 2#4) ∧ decodeWord 0b1001000100100000#16 = .ok (.sneReg 1#4 2#4) ∧
    decodeWord 0b1011001000000001#16 = .ok (.jpV0 0x201#12) := by decide

theorem test_decode_alu :
    decodeWord 0b0110101001011011#16 = .ok (.ldImm 0xA#4 0x5B#8) ∧
    decodeWord 0b0111101011111111#16 = .ok (.addImm 0xA#4 0xFF#8) ∧
    decodeWord 0b1000101010110000#16 = .ok (.ldReg 0xA#4 0xB#4) ∧
    decodeWord 0b1000000100100001#16 = .ok (.orReg 1#4 2#4) ∧ decodeWord 0b1000000100100010#16 = .ok (.andReg 1#4 2#4) ∧
    decodeWord 0b1000000100100011#16 = .ok (.xorReg 1#4 2#4) ∧ decodeWord 0b1000000100100100#16 = .ok (.addReg 1#4 2#4) ∧
    decodeWord 0b1000000100100101#16 = .ok (.subReg 1#4 2#4) ∧ decodeWord 0b1000000100100110#16 = .ok (.shr 1#4 2#4) ∧
    decodeWord 0b1000000100100111#16 = .ok (.subnReg 1#4 2#4) ∧ decodeWord 0b1000000100101110#16 = .ok (.shl 1#4 2#4) ∧
    decodeWord 0b1100001100001111#16 = .ok (.rnd 3#4 0x0F#8) := by decide

theorem test_decode_index_display_keypad_timer :
    decodeWord 0b1010000100100011#16 = .ok (.ldI 0x123#12) ∧ decodeWord 0b1101000100100011#16 = .ok (.drw 1#4 2#4 3#4) ∧
    decodeWord 0b1110000110011110#16 = .ok (.skp 1#4) ∧ decodeWord 0b1110000110100001#16 = .ok (.sknp 1#4) ∧
    decodeWord 0b1111010100000111#16 = .ok (.ldVDt 5#4) ∧ decodeWord 0b1111001100001010#16 = .ok (.ldK 3#4) ∧
    decodeWord 0b1111011000010101#16 = .ok (.ldDtV 6#4) ∧ decodeWord 0b1111011100011000#16 = .ok (.ldStV 7#4) ∧
    decodeWord 0b1111000100011110#16 = .ok (.addI 1#4) ∧ decodeWord 0b1111001000101001#16 = .ok (.ldF 2#4) ∧
    decodeWord 0b1111001100110011#16 = .ok (.ldB 3#4) ∧ decodeWord 0b1111001001010101#16 = .ok (.ldMemV 2#4) ∧
    decodeWord 0b1111000101100101#16 = .ok (.ldVMem 1#4) := by decide

theorem test_decode_unknown :
    decodeWord 0x0000#16 = .error (.unknownOpcode 0x0000#16) ∧ decodeWord 0x00EF#16 = .error (.unknownOpcode 0x00EF#16) ∧
    decodeWord 0x5121#16 = .error (.unknownOpcode 0x5121#16) ∧ decodeWord 0x8128#16 = .error (.unknownOpcode 0x8128#16) ∧
    decodeWord 0x9121#16 = .error (.unknownOpcode 0x9121#16) ∧ decodeWord 0xE1A0#16 = .error (.unknownOpcode 0xE1A0#16) ∧
    decodeWord 0xF0FF#16 = .error (.unknownOpcode 0xF0FF#16) := by decide

theorem test_decode_too_short : decode [0x12#8] = .error .tooShort := by decide

theorem test_encode_is_big_endian : encode (.ldImm 0xA#4 0x2B#8) = [0x6A#8, 0x2B#8] := by decide

theorem test_decode_table_word : decodeTableWord 16 0x8126 = some (.shr 1#4 2#4) := by decide

/-! ### Control transfer (V2.1) -/

theorem test_ret_pops : after (exec .ret { State.reset with stack := [0x206#16, 0x234#16] }) (fun t => (t.pc, t.stack))
    = some (0x234#16, [0x206#16]) := by decide

theorem test_ret_on_empty_stack_faults : after (exec .ret State.reset) (fun t => (t.run, t.pc, t.diag))
    = some (.faulted .stackUnderflow 0x200#16, 0x200#16, [.fault .stackUnderflow 0x200#16 none]) := by decide

theorem test_jp : after (exec (.jp 0xABC#12) State.reset) (·.pc) = some 0xABC#16 := by decide

theorem test_call_at_ffe_pushes_1000 : after (exec (.call 0x456#12) { State.reset with pc := 0xFFE#16 })
    (fun t => (t.pc, t.stack)) = some (0x456#16, [0x1000#16]) := by decide

theorem test_call_on_full_stack_faults :
    after (exec (.call 0x456#12) { State.reset with stack := List.replicate 16 0x300#16 })
      (fun t => (t.run, t.pc, t.stack)) = some (.faulted .stackOverflow 0x200#16, 0x200#16, List.replicate 16 0x300#16) := by
  decide

theorem test_se_imm_taken : after (exec (.seImm 0xA#4 0x42#8) (with1 0xA#4 0x42#8)) (·.pc) = some 0x204#16 := by decide
theorem test_se_imm_not_taken : after (exec (.seImm 0xA#4 0x42#8) (with1 0xA#4 0x43#8)) (·.pc) = some 0x202#16 := by decide
theorem test_sne_imm_taken : after (exec (.sneImm 0xA#4 0x42#8) (with1 0xA#4 0x43#8)) (·.pc) = some 0x204#16 := by decide
theorem test_sne_imm_not_taken : after (exec (.sneImm 0xA#4 0x42#8) (with1 0xA#4 0x42#8)) (·.pc) = some 0x202#16 := by decide
theorem test_se_reg_taken : after (exec (.seReg 1#4 2#4) (with2 1#4 7#8 2#4 7#8)) (·.pc) = some 0x204#16 := by decide
theorem test_se_reg_not_taken : after (exec (.seReg 1#4 2#4) (with2 1#4 7#8 2#4 8#8)) (·.pc) = some 0x202#16 := by decide
theorem test_sne_reg_taken : after (exec (.sneReg 1#4 2#4) (with2 1#4 7#8 2#4 8#8)) (·.pc) = some 0x204#16 := by decide
theorem test_sne_reg_not_taken : after (exec (.sneReg 1#4 2#4) (with2 1#4 7#8 2#4 7#8)) (·.pc) = some 0x202#16 := by decide
theorem test_jp_v0 : after (exec (.jpV0 0x200#12) (with1 0#4 0x10#8)) (·.pc) = some 0x210#16 := by decide
theorem test_jp_v0_wraps : after (exec (.jpV0 0xFFF#12) (with1 0#4 0x02#8)) (·.pc) = some 0x001#16 := by decide

/-! ### ALU (V2.2) -/

theorem test_ld_imm : after (exec (.ldImm 0xA#4 0x5B#8) State.reset) (fun t => (t.readV 0xA#4, t.pc))
    = some (0x5B#8, 0x202#16) := by decide
theorem test_add_imm_wraps_without_flag : after (exec (.addImm 0xA#4 0xFF#8) (with2 0xA#4 2#8 0xF#4 0x77#8))
    (fun t => (t.readV 0xA#4, t.readV 0xF#4)) = some (1#8, 0x77#8) := by decide
theorem test_ld_reg : after (exec (.ldReg 0xA#4 0xB#4) (with1 0xB#4 0x99#8)) (·.readV 0xA#4) = some 0x99#8 := by decide
theorem test_or : after (exec (.orReg 1#4 2#4) ((with2 1#4 0xF0#8 2#4 0x0F#8).writeV 0xF#4 5#8))
    (fun t => (t.readV 1#4, t.readV 0xF#4)) = some (0xFF#8, 5#8) := by decide
theorem test_and : after (exec (.andReg 1#4 2#4) ((with2 1#4 0xF0#8 2#4 0x3C#8).writeV 0xF#4 5#8))
    (fun t => (t.readV 1#4, t.readV 0xF#4)) = some (0x30#8, 5#8) := by decide
theorem test_xor : after (exec (.xorReg 1#4 2#4) (with2 1#4 0xFF#8 2#4 0x0F#8)) (·.readV 1#4) = some 0xF0#8 := by decide
theorem test_xor_with_itself : after (exec (.xorReg 1#4 1#4) (with1 1#4 0xAB#8)) (·.readV 1#4) = some 0#8 := by decide
theorem test_add_reg_sum_of_100 : after (exec (.addReg 0#4 1#4) (with2 0#4 0x80#8 1#4 0x80#8))
    (fun t => (t.readV 0#4, t.readV 0xF#4)) = some (0#8, 1#8) := by decide
theorem test_add_reg_into_vf : after (exec (.addReg 0xF#4 0#4) (with2 0#4 1#8 0xF#4 0xFF#8)) (·.readV 0xF#4)
    = some 1#8 := by decide
theorem test_sub_equal_gives_flag_0 : after (exec (.subReg 0#4 1#4) (with2 0#4 0x20#8 1#4 0x20#8))
    (fun t => (t.readV 0#4, t.readV 0xF#4)) = some (0#8, 0#8) := by decide
theorem test_sub_from_old_vf : after (exec (.subReg 0#4 0xF#4) (with2 0#4 5#8 0xF#4 1#8))
    (fun t => (t.readV 0#4, t.readV 0xF#4)) = some (4#8, 1#8) := by decide
theorem test_shr_reads_vx_alone : after (exec (.shr 1#4 2#4) (with2 1#4 5#8 2#4 0xFF#8))
    (fun t => (t.readV 1#4, t.readV 0xF#4)) = some (2#8, 1#8) := by decide
theorem test_shr_of_vf : after (exec (.shr 0xF#4 0#4) (with1 0xF#4 2#8)) (·.readV 0xF#4) = some 0#8 := by decide
theorem test_subn_greater : after (exec (.subnReg 0#4 1#4) (with2 0#4 0x10#8 1#4 0x20#8))
    (fun t => (t.readV 0#4, t.readV 0xF#4)) = some (0x10#8, 1#8) := by decide
theorem test_subn_less : after (exec (.subnReg 0#4 1#4) (with2 0#4 0x20#8 1#4 0x10#8))
    (fun t => (t.readV 0#4, t.readV 0xF#4)) = some (0xF0#8, 0#8) := by decide
theorem test_shl_bit_7 : after (exec (.shl 1#4 2#4) (with1 1#4 0x81#8)) (fun t => (t.readV 1#4, t.readV 0xF#4))
    = some (2#8, 1#8) := by decide
theorem test_shl_of_vf : after (exec (.shl 0xF#4 0#4) (with1 0xF#4 1#8)) (·.readV 0xF#4) = some 0#8 := by decide
theorem test_rnd_masked_by_zero : after (exec (.rnd 3#4 0#8) (with1 3#4 0x55#8)) (fun t => (t.readV 3#4, t.draws))
    = some (0#8, 1) := by
  simp [exec, execRnd, after, nextOf, with1, State.reset]

/-! ### Index and memory (V2.3) -/

theorem test_ld_i : after (exec (.ldI 0x123#12) (State.reset.writeI 0xFFFF#16)) (·.i) = some 0x0123#16 := by decide
theorem test_add_i_to_1000_without_flag : after (exec (.addI 1#4) ((with2 1#4 1#8 0xF#4 1#8).writeI 0x0FFF#16))
    (fun t => (t.i, t.readV 0xF#4)) = some (0x1000#16, 0#8) := by decide
theorem test_add_i_of_old_vf : after (exec (.addI 0xF#4) ((with1 0xF#4 0x20#8).writeI 0xFFF0#16))
    (fun t => (t.i, t.readV 0xF#4)) = some (0x0010#16, 1#8) := by decide
theorem test_ld_f_ignores_the_high_nibble : after (exec (.ldF 0#4) (with1 0#4 0x3A#8)) (·.i) = some 0x0082#16 := by decide
theorem test_bcd_255 : after (exec (.ldB 0#4) ((with1 0#4 0xFF#8).writeI 0x300#16)) (fun t => Memory.readBytes t.mem 0x2FF 5)
    = some [0#8, 2#8, 5#8, 5#8, 0#8] := by decide
theorem test_bcd_out_of_range : after (exec (.ldB 0#4) ((with1 0#4 0x7B#8).writeI 0xFFE#16))
    (fun t => (t.run, t.pc, t.mem, t.diag)) = some (.faulted .memoryFault 0x200#16, 0x200#16, [],
      [.fault .memoryFault 0x200#16 (some 0x1000)]) := by decide
theorem test_store_block : after (exec (.ldMemV 2#4) (((with2 0#4 1#8 1#4 2#8).writeV 2#4 3#8).writeI 0x300#16))
    (fun t => (Memory.readBytes t.mem 0x300 4, t.i)) = some ([1#8, 2#8, 3#8, 0#8], 0x300#16) := by decide
theorem test_store_across_the_end : after (exec (.ldMemV 1#4) ((with2 0#4 1#8 1#4 2#8).writeI 0xFFF#16))
    (fun t => (t.run, t.readMem 0xFFF)) = some (.faulted .memoryFault 0x200#16, 0#8) := by decide
theorem test_load_all_from_the_font : after (exec (.ldVMem 0xF#4) (State.reset.writeI 0x050#16))
    (fun t => (t.readV 0#4, t.readV 5#4, t.readV 0xD#4, t.readV 0xF#4, t.i))
    = some (0xF0#8, 0x20#8, 0x80#8, 0xF0#8, 0x050#16) := by decide
theorem test_load_at_1000_faults : after (exec (.ldVMem 0#4) (State.reset.writeI 0x1000#16)) (fun t => (t.run, t.diag))
    = some (.faulted .memoryFault 0x200#16, [.fault .memoryFault 0x200#16 (some 0x1000)]) := by decide

/-! ### Display (V2.4) -/

theorem test_cls : after (exec .cls { State.reset with fb := Vector.replicate 32 0xFFFFFFFFFFFFFFFF#64 })
    (fun t => (t.pixel 0 0, t.pixel 63 31, t.pc)) = some (false, false, 0x202#16) := by decide
theorem test_draw_clips_at_the_right : after (exec (.drw 1#4 2#4 1#4) (withMem (with1 1#4 60#8) 0x300#16 [0xFF#8]))
    (fun t => (t.pixel 59 0, t.pixel 60 0, t.pixel 63 0, t.pixel 0 0, t.readV 0xF#4))
    = some (false, true, true, false, 0#8) := by decide
theorem test_draw_collides : after (exec (.drw 2#4 1#4 1#4) (withMem
      { with1 2#4 4#8 with fb := Vector.set (Vector.replicate 32 0#64) 0 0xFF00000000000000#64 } 0x300#16 [0xFF#8]))
    (fun t => ([3, 4, 7, 8, 11, 12].map (t.pixel · 0), t.readV 0xF#4))
    = some ([true, false, false, true, true, false], 1#8) := by decide

/-! ### Keypad and timers (V2.5) -/

theorem test_skp_ignores_the_high_nibble : after (exec (.skp 1#4) ((with1 1#4 0x35#8).press 5#4)) (·.pc)
    = some 0x204#16 := by decide
theorem test_skp_other_key : after (exec (.skp 1#4) ((with1 1#4 5#8).press 6#4)) (·.pc) = some 0x202#16 := by decide
theorem test_sknp_no_key : after (exec (.sknp 1#4) (with1 1#4 5#8)) (·.pc) = some 0x204#16 := by decide
theorem test_sknp_pressed : after (exec (.sknp 1#4) ((with1 1#4 5#8).press 5#4)) (·.pc) = some 0x202#16 := by decide
theorem test_ld_v_dt : after (exec (.ldVDt 5#4) (State.reset.writeDt 0x3C#8)) (·.readV 5#4) = some 0x3C#8 := by decide
theorem test_ld_dt_v : after (exec (.ldDtV 0#4) (with1 0#4 5#8)) (·.dt) = some 5#8 := by decide
theorem test_ld_st_v_leaves_tone : after (exec (.ldStV 0#4) (with1 0#4 2#8)) (fun t => (t.st, t.tone))
    = some (2#8, false) := by decide
theorem test_ld_k_waits : after (exec (.ldK 3#4) State.reset) (fun t => (t.pc, t.run, t.readV 3#4))
    = some (0x202#16, .waitKey 3#4, 0#8) := by decide

/-! ### The step and the agents (V3; P7) -/

theorem test_first_step_at_reset_reports_the_unknown_word_0000 : after (step (strobed State.reset))
    (fun t => (t.pc, t.run, t.diag)) = some (0x202#16, .running, [.unknownOpcode 0x200#16 0#16]) := by decide
theorem test_fetch_word_runs_next : after (step (State.reset.withFetchWord 16 0x6A2B)) (fun t => (t.readV 0xA#4, t.pc))
    = some (0x2B#8, 0x202#16) := by decide
theorem test_fetch_at_1000_faults : after (step (strobed { State.reset with pc := 0x1000#16 })) (fun t => (t.run, t.pc, t.diag))
    = some (.faulted .memoryFault 0x1000#16, 0x1000#16, [.fault .memoryFault 0x1000#16 (some 0x1000)]) := by decide
theorem test_tick_reads_st_before_the_decrement :
    after (step { (State.reset.writeSt 1#8).writeDt 1#8 with inputs := [.timerTick] }) (fun t => (t.dt, t.st, t.tone))
    = some (0#8, 0#8, true) := by decide
theorem test_tick_at_zero_does_not_wrap :
    after (step { State.reset with inputs := [.timerTick], tone := true }) (fun t => (t.dt, t.st, t.tone))
    = some (0#8, 0#8, false) := by decide
theorem test_second_key_releases_the_first : after (step { State.reset.press 5#4 with inputs := [.keyDown 7#4] })
    (fun t => (t.isPressed 5#4, t.isPressed 7#4, t.last)) = some (false, true, some 7#4) := by decide
theorem test_key_up_keeps_last : after (step { State.reset.press 7#4 with inputs := [.keyUp 7#4] })
    (fun t => (t.isPressed 7#4, t.last)) = some (false, some 7#4) := by decide
theorem test_key_down_completes_fx0a :
    after (step { State.reset with run := .waitKey 3#4, pc := 0x202#16, inputs := [.keyDown 9#4] })
      (fun t => (t.readV 3#4, t.run, t.pc)) = some (9#8, .running, 0x202#16) := by decide
theorem test_quit_leaves_vx : after (step { State.reset with run := .waitKey 3#4, inputs := [.quit] })
    (fun t => (t.readV 3#4, t.run)) = some (0#8, .quit) := by decide
theorem test_load_then_first_word : (nextOf (load [0x12#8, 0x28#8] State.reset)).bind (fun s => after (step (strobed s)) (·.pc))
    = some 0x228#16 := by decide
theorem test_host_key_map : hostKeyCode 'X' = some 0x0#4 ∧ hostKeyCode 'V' = some 0xF#4 ∧ hostKeyCode 'P' = none := by decide

/-! ### Witnesses: for each statement with hypotheses, a state and operands that meet all of them together -/

/-- State.reset with the word `w` at PC, the cycle strobe next and the parameters' quirk as given. -/
def atWord (w : Word) (quirk : Bool) : State :=
  { strobed (State.reset.placeWord w) with params := { Params.default with quirkTimerPerInstruction := quirk } }

theorem witness_EncodeOfDecodeIsIdentity : decodeWord 0x8126#16 = .ok (.shr 1#4 2#4) := by decide

theorem witness_StepRunsTheDecodedInstruction :
    let s := atWord 0x6A2B#16 false
    s.run = .running ∧ s.nextInput = .cycle ∧ s.params.quirkTimerPerInstruction = false ∧ s.pc.toNat + 1 < 0x1000 ∧
      decode [s.readMem s.pc.toNat, s.readMem (s.pc.toNat + 1)] = .ok (.ldImm 0xA#4 0x2B#8, []) := by decide

theorem witness_UnknownWordIsReportedAndSkipped :
    let s := atWord 0x0123#16 false
    (s.run = .running ∧ s.nextInput = .cycle ∧ s.params.quirkTimerPerInstruction = false ∧ s.pc.toNat + 1 < 0x1000 ∧
      bigEndian (s.readMem s.pc.toNat) (s.readMem (s.pc.toNat + 1)) = 0x0123#16) ∧
    ∀ j, 0x0123#16 &&& rowMask j ≠ rowMatch j := by
  refine ⟨by decide, fun j => ?_⟩
  cases j <;> simp only [rowMask, rowMatch] <;> decide

theorem witness_FetchBeyondMemoryFaults :
    let s := strobed { State.reset with pc := 0xFFF#16 }
    s.run = .running ∧ s.nextInput = .cycle ∧ 0x1000 ≤ s.pc.toNat + 1 := by decide

theorem witness_NoCpuStepWhileWaiting :
    let s := { State.reset with run := .waitKey 0xF#4, inputs := [.cycle] }
    s.run = .waitKey 0xF#4 ∧ s.nextInput = .cycle := by decide

theorem witness_FaultedAndQuitAreFinal :
    ({ State.reset with run := .faulted .memoryFault 0xFFF#16 } : State).run = .faulted .memoryFault 0xFFF#16 ∧
    ({ State.reset with run := .quit } : State).run = .quit := by decide

theorem witness_LiveBlockSteps : State.reset.live ∧ ({ State.reset with run := .waitKey 0#4 } : State).live :=
  ⟨.inl rfl, .inr ⟨_, rfl⟩⟩

theorem witness_AnInputIsTakenInOrder :
    ({ State.reset with inputs := [.quit, .cycle] } : State).inputs = .quit :: [.cycle] ∧ State.reset.inputs = [] := by decide

theorem witness_TicksAndStrobesComeAgain : State.reset.live := .inl rfl

theorem witness_TimersRunOutDuringAWait :
    let s := { (State.reset.writeDt 0xFF#8).writeSt 0xFF#8 with run := .waitKey 0xF#4 }
    s.run = .waitKey 0xF#4 ∧ s.params.quirkTimerPerInstruction = false := by decide

theorem witness_CallPushesReturnAddressOrOverflows :
    let room := { State.reset with stack := List.replicate 15 0x300#16 }
    let full := { State.reset with stack := List.replicate 16 0x300#16 }
    room.stack.length < room.params.stackDepth ∧ full.params.stackDepth ≤ full.stack.length := by decide

theorem witness_ReturnPopsNewestEntryOrUnderflows :
    ({ State.reset with stack := [0x1000#16] } : State).stack = [] ++ [0x1000#16] ∧ State.reset.stack = [] := by decide

theorem witness_CallThenReturnComesBack :
    let s := { State.reset with stack := List.replicate 15 0x300#16 }
    s.stack.length < s.params.stackDepth := by decide

theorem witness_KeySkips : (5#4).toNat = ((with1 1#4 0x35#8).readV 1#4).toNat % 16 := by decide

/-- The clauses about X ≠ 0xF of the arithmetic statements, at the register next to VF. -/
theorem witness_destination_is_not_vf : (0xE#4 : Nibble) ≠ 0xF#4 := by decide

theorem witness_BcdStoresThreeDigitsOrFaults :
    Memory.wf (State.reset.writeI 0xFFD#16).mem ∧ (State.reset.writeI 0xFFD#16).i.toNat + 2 < 0x1000 ∧
    Memory.wf (State.reset.writeI 0xFFE#16).mem ∧ 0x1000 ≤ (State.reset.writeI 0xFFE#16).i.toNat + 2 := by decide

theorem witness_BlockStoreOrFault :
    Memory.wf (State.reset.writeI 0xFF0#16).mem ∧ (State.reset.writeI 0xFF0#16).i.toNat + (0xF#4).toNat < 0x1000 ∧
    Memory.wf (State.reset.writeI 0xFF1#16).mem ∧ 0x1000 ≤ (State.reset.writeI 0xFF1#16).i.toNat + (0xF#4).toNat := by
  decide

theorem witness_BlockLoadOrFault : (State.reset.writeI 0xFFF#16).i.toNat + (0#4).toNat < 0x1000 ∧
    0x1000 ≤ (State.reset.writeI 0x1000#16).i.toNat + (0#4).toNat := by decide

theorem witness_BlockStoreThenLoadRestores :
    let s := State.reset.writeI 0xFFA#16
    Memory.wf s.mem ∧ s.i.toNat + (5#4).toNat < 0x1000 := by decide

/-- The next word is stored as a whole, in its second byte alone by FX33, and not at all. -/
theorem witness_StoreIsSeenByTheNextFetch :
    let s := State.reset.writeI 0x202#16
    let t := State.reset.writeI 0x203#16
    let u := { State.reset.writeI 0xFFD#16 with pc := 0xFFC#16 }
    (Memory.wf s.mem ∧ s.pc.toNat + 3 < 0x1000 ∧ s.i.toNat + (1#4).toNat < 0x1000 ∧ s.pc.toNat + 2 = s.i.toNat) ∧
    (Memory.wf t.mem ∧ t.pc.toNat + 3 < 0x1000 ∧ t.i.toNat + 2 < 0x1000 ∧ t.pc.toNat + 3 = t.i.toNat) ∧
    (Memory.wf u.mem ∧ u.pc.toNat + 3 < 0x1000 ∧ u.i.toNat + 2 < 0x1000 ∧ u.i.toNat + (2#4).toNat < 0x1000) := by decide

theorem witness_DrawTurnsLitPixelsOverOrFaults :
    ((0#4 : Nibble) = 0#4 ∨ (State.reset.writeI 0xFFFF#16).i.toNat + (0#4).toNat ≤ 0x1000) ∧
    ((1#4 : Nibble) = 0#4 ∨ (State.reset.writeI 0xFFF#16).i.toNat + (1#4).toNat ≤ 0x1000) ∧
    (1 ≤ (2#4).toNat ∧ 0x1000 ≤ (State.reset.writeI 0xFFF#16).i.toNat + (2#4).toNat - 1) := by decide

/-- A lit pixel and an unlit one of a draw of the font's glyph 0 at the origin. -/
theorem witness_spriteBit :
    spriteBit (State.reset.writeI 0x050#16) 0#4 0#4 5#4 3 0 ∧ ¬ spriteBit (State.reset.writeI 0x050#16) 0#4 0#4 5#4 1 1 := by
  unfold spriteBit
  decide

theorem witness_DrawStaysInsideItsRectangle :
    (∃ t, exec (.drw 0#4 0#4 1#4) State.reset = .next t ∧ ∀ kind addr, t.run ≠ .faulted kind addr) ∧
    (∃ t, exec (.drw 0#4 0#4 1#4) (State.reset.writeI 0x1000#16) = .next t ∧
      t.run = .faulted .memoryFault 0x200#16) :=
  ⟨⟨_, rfl, fun _ _ => nofun⟩, ⟨_, rfl, rfl⟩⟩

theorem witness_DrawTwiceRestoresTheScreen :
    ((1#4 : Nibble) = 0#4 ∨ (State.reset.writeI 0xFFF#16).i.toNat + (1#4).toNat ≤ 0x1000) ∧ (0xE#4 : Nibble) ≠ 0xF#4 ∧
      (0#4 : Nibble) ≠ 0xF#4 := by decide

theorem witness_KeyDownLatchesOneKeyAndEndsTheWait :
    let s := { State.reset with inputs := [.keyDown 9#4] }
    let w := { s with run := .waitKey 3#4 }
    let q := { w with params := { Params.default with quirkTimerPerInstruction := true } }
    (s.nextInput = .keyDown 9#4 ∧ s.run = .running) ∧
    (w.nextInput = .keyDown 9#4 ∧ w.run = .waitKey 3#4 ∧ w.params.quirkTimerPerInstruction = false) ∧
    (q.nextInput = .keyDown 9#4 ∧ q.run = .waitKey 3#4 ∧ q.params.quirkTimerPerInstruction = true) := by decide

theorem witness_KeyUpReleasesTheKey :
    let s := { State.reset with inputs := [.keyUp 9#4, .cycle] }
    s.live ∧ s.nextInput = .keyUp 9#4 := ⟨.inl rfl, rfl⟩

theorem witness_TimerTickCountsDown :
    let s := { State.reset with inputs := [.timerTick], run := .waitKey 0#4 }
    s.live ∧ s.nextInput = .timerTick ∧ s.params.quirkTimerPerInstruction = false := ⟨.inr ⟨_, rfl⟩, rfl, rfl⟩

theorem witness_QuirkTicksOncePerInstruction :
    let a := { atWord 0x6A2B#16 true with inputs := [.timerTick] }
    let b := atWord 0x6A2B#16 true
    let c := atWord 0xF30A#16 true
    let d := atWord 0x0123#16 true
    let e := { atWord 0xF30A#16 true with inputs := [.keyDown 9#4], run := .waitKey 3#4 }
    (a.params.quirkTimerPerInstruction = true ∧ a.live ∧ a.nextInput = .timerTick) ∧
    (b.params.quirkTimerPerInstruction = true ∧ b.run = .running ∧ b.nextInput = .cycle ∧ b.pc.toNat + 1 < 0x1000 ∧
      decode [b.readMem b.pc.toNat, b.readMem (b.pc.toNat + 1)] = .ok (.ldImm 0xA#4 0x2B#8, []) ∧
      ∃ t, exec (.ldImm 0xA#4 0x2B#8) b.dropInput = .next t ∧ t.run = .running) ∧
    (c.params.quirkTimerPerInstruction = true ∧ c.run = .running ∧ c.nextInput = .cycle ∧ c.pc.toNat + 1 < 0x1000 ∧
      decode [c.readMem c.pc.toNat, c.readMem (c.pc.toNat + 1)] = .ok (.ldK 3#4, []) ∧
      ∃ t, exec (.ldK 3#4) c.dropInput = .next t ∧ t.run ≠ .running) ∧
    (d.params.quirkTimerPerInstruction = true ∧ d.run = .running ∧ d.nextInput = .cycle ∧ d.pc.toNat + 1 < 0x1000 ∧
      bigEndian (d.readMem d.pc.toNat) (d.readMem (d.pc.toNat + 1)) = 0x0123#16 ∧
      ∀ j, 0x0123#16 &&& rowMask j ≠ rowMatch j) ∧
    (e.params.quirkTimerPerInstruction = true ∧ e.run = .waitKey 3#4 ∧ e.nextInput = .keyDown 9#4) :=
  ⟨⟨rfl, .inl rfl, rfl⟩, ⟨rfl, rfl, rfl, by decide, by decide, ⟨_, rfl, rfl⟩⟩,
    ⟨rfl, rfl, rfl, by decide, by decide, ⟨_, rfl, nofun⟩⟩,
    ⟨rfl, rfl, rfl, by decide, by decide, witness_UnknownWordIsReportedAndSkipped.2⟩, ⟨rfl, rfl, rfl⟩⟩

theorem witness_QuitChangesRunAlone :
    let s := { State.reset with inputs := [.quit], run := .waitKey 3#4 }
    s.live ∧ s.nextInput = .quit := ⟨.inr ⟨_, rfl⟩, rfl⟩

theorem witness_LoadPlacesTheProgramOrRefusesIt :
    (List.replicate 3584 0x12#8).length ≤ 3584 ∧ 3584 < (List.replicate 3585 0x12#8).length := by
  rw [List.length_replicate, List.length_replicate]
  decide

theorem witness_InvariantAfterLoad :
    State.reset.params.wellFormed = true ∧ ∃ t, load [0x12#8, 0x00#8] State.reset = .next t := ⟨by decide, _, rfl⟩

theorem witness_EveryStepKeepsTheInvariant :
    let s := { strobed (State.reset.press 0xF#4) with pc := 0x1002#16, stack := List.replicate 16 0x1000#16 }
    Inv s ∧ ∃ t, step s = .next t := by
  refine ⟨⟨by decide, by decide, by decide, fun w hw => ?_, by decide, by decide, ?_⟩, _, rfl⟩
  · rw [List.eq_of_mem_replicate hw]
    decide
  intro kind addr h
  cases h

theorem witness_DiagOnlyGrows :
    ∃ t, step (strobed State.reset) = .next t ∧ t.diag ≠ (strobed State.reset).diag := ⟨_, rfl, by decide⟩

theorem witness_PlainInstructionsAdvancePcByTwo :
    isTransfer (.ldMemV 0xF#4) = false ∧ ∃ t, exec (.ldMemV 0xF#4) State.reset = .next t ∧
      ∀ kind addr, t.run ≠ .faulted kind addr := ⟨rfl, _, rfl, fun _ _ => nofun⟩

theorem witness_OnlyTheSevenWriteVfAsAFlag :
    (writesFlag (.ldVMem 0xE#4) = false ∧ destReg (.ldVMem 0xE#4) ≠ some 0xF#4 ∧
      ∃ t, exec (.ldVMem 0xE#4) State.reset = .next t) ∧
    (writesFlag (.drw 0xF#4 0#4 1#4) = true ∧ ∃ t, exec (.drw 0xF#4 0#4 1#4) State.reset = .next t ∧
      ∀ kind addr, t.run ≠ .faulted kind addr) :=
  ⟨⟨rfl, by decide, _, rfl⟩, rfl, _, rfl, fun _ _ => nofun⟩

theorem witness_InstructionsLeaveToneAndKeypad : ∃ t, exec (.ldStV 0#4) (with1 0#4 2#8) = .next t := ⟨_, rfl⟩

end Sys2Proof.Tests
end

section
/-! Totality of `exec` (R2, R98, R103). Twenty-eight instructions answer one written-out next state; the six that can fault
(RET, CALL, DRW, FX33, FX55, FX65) get one equation per case here, the fault's and the completed one's, and both are next
states. -/

namespace Sys2Proof.Machine

/-! ### The instructions that can fault, an equation per case -/

/-- RET on an empty stack (R58). -/
theorem execRet_nil {s : State} (h : s.stack = []) : execRet s = .next (s.enterFault .stackUnderflow none) := by
  have hpop : s.advance.pop = none := pop_nil h
  simp only [execRet, hpop]

/-- RET on a stack with a newest entry (R58). -/
theorem execRet_append {s : State} {ws : List Word} {w : Word} (h : s.stack = ws ++ [w]) :
    execRet s = .next (State.jump { s.advance with stack := ws } w) := by
  have hpop : s.advance.pop = some (w, { s.advance with stack := ws }) := pop_append h
  simp only [execRet, hpop]

/-- CALL below the stack's depth (R60). -/
theorem execCall_room {s : State} (nnn : Addr12) (h : s.stack.length < s.params.stackDepth) :
    execCall nnn s = .next (State.jump { s.advance with stack := s.stack ++ [s.pc + 2#16] } (addr16 nnn)) := by
  have hpush : s.advance.push s.advance.pc = some { s.advance with stack := s.stack ++ [s.pc + 2#16] } := push_room _ h
  simp only [execCall, hpush]

/-- CALL at the stack's depth (R60). -/
theorem execCall_full {s : State} (nnn : Addr12) (h : s.params.stackDepth ≤ s.stack.length) :
    execCall nnn s = .next (s.enterFault .stackOverflow none) := by
  have hpush : s.advance.push s.advance.pc = none := push_full _ h
  simp only [execCall, hpush]

/-- DRW whose rows lie in memory (R86). -/
theorem execDrw_inRange {s : State} (x y : Nibble) {n : Nibble} (h : rangeFault s.i.toNat n.toNat = none) :
    execDrw x y n s = .next (s.advance.compose (s.readSprite n) (s.readV x) (s.readV y)) := by
  simp only [execDrw, h]

/-- DRW whose rows leave memory (R86). -/
theorem execDrw_outOfRange {s : State} (x y : Nibble) {n : Nibble} {a : Nat} (h : rangeFault s.i.toNat n.toNat = some a) :
    execDrw x y n s = .next (s.enterFault .memoryFault (some a)) := by
  simp only [execDrw, h]

/-- FX33 whose three digits lie in memory (R82). -/
theorem execLdB_inRange {s : State} (x : Nibble) (h : rangeFault s.i.toNat 3 = none) :
    execLdB x s = .next (s.advance.storeBytes s.i.toNat (bcdDigits (s.readV x))) := by
  simp only [execLdB, h]

/-- FX33 whose three digits leave memory (R82). -/
theorem execLdB_outOfRange {s : State} (x : Nibble) {a : Nat} (h : rangeFault s.i.toNat 3 = some a) :
    execLdB x s = .next (s.enterFault .memoryFault (some a)) := by
  simp only [execLdB, h]

/-- FX55 whose block lies in memory (R83). -/
theorem execLdMemV_inRange {s : State} {x : Nibble} (h : rangeFault s.i.toNat (blockLen x) = none) :
    execLdMemV x s = .next (s.advance.storeBytes s.i.toNat (s.readBlock x)) := by
  simp only [execLdMemV, h]

/-- FX55 whose block leaves memory (R83). -/
theorem execLdMemV_outOfRange {s : State} {x : Nibble} {a : Nat} (h : rangeFault s.i.toNat (blockLen x) = some a) :
    execLdMemV x s = .next (s.enterFault .memoryFault (some a)) := by
  simp only [execLdMemV, h]

/-- FX65 whose block lies in memory (R84). -/
theorem execLdVMem_inRange {s : State} {x : Nibble} (h : rangeFault s.i.toNat (blockLen x) = none) :
    execLdVMem x s = .next (s.advance.loadBlock x) := by
  simp only [execLdVMem, h]

/-- FX65 whose block leaves memory (R84). -/
theorem execLdVMem_outOfRange {s : State} {x : Nibble} {a : Nat} (h : rangeFault s.i.toNat (blockLen x) = some a) :
    execLdVMem x s = .next (s.enterFault .memoryFault (some a)) := by
  simp only [execLdVMem, h]

/-! ### Totality -/

/-- Settles O15: the six instructions that can fault answer a next state in either case, and each of the others writes its
next state out. -/
theorem everyInstructionAnswersANextState : Obligations.EveryInstructionAnswersANextState := by
  intro i s
  cases i with
  | ret =>
    rcases List.eq_nil_or_concat' s.stack with h | ⟨ws, w, h⟩
    · exact ⟨_, execRet_nil h⟩
    · exact ⟨_, execRet_append h⟩
  | call nnn =>
    rcases Nat.lt_or_ge s.stack.length s.params.stackDepth with h | h
    · exact ⟨_, execCall_room nnn h⟩
    · exact ⟨_, execCall_full nnn h⟩
  | drw x y n =>
    cases h : rangeFault s.i.toNat n.toNat with
    | none => exact ⟨_, execDrw_inRange x y h⟩
    | some a => exact ⟨_, execDrw_outOfRange x y h⟩
  | ldB x =>
    cases h : rangeFault s.i.toNat 3 with
    | none => exact ⟨_, execLdB_inRange x h⟩
    | some a => exact ⟨_, execLdB_outOfRange x h⟩
  | ldMemV x =>
    cases h : rangeFault s.i.toNat (blockLen x) with
    | none => exact ⟨_, execLdMemV_inRange h⟩
    | some a => exact ⟨_, execLdMemV_outOfRange h⟩
  | ldVMem x =>
    cases h : rangeFault s.i.toNat (blockLen x) with
    | none => exact ⟨_, execLdVMem_inRange h⟩
    | some a => exact ⟨_, execLdVMem_outOfRange h⟩
  | _ => exact ⟨_, rfl⟩

end Sys2Proof.Machine
end

section
/-! ## What an instruction can do (spec/40_dispatcher.md R50 to R54), said once for the statements about the whole machine. -/

namespace Sys2Proof.Machine

/-! ### `exec` answers one state -/

/-- A fact about the one state that an instruction answers holds of every state it answers. -/
theorem of_exec_next {i : Instr} {s t : State} {P : State → Prop} (h : exec i s = .next t)
    (hP : ∃ u, exec i s = .next u ∧ P u) : P t := by
  obtain ⟨u, hu, hPu⟩ := hP
  cases hu.symm.trans h
  exact hPu

/-! ### The targets of the jumps -/

/-- A 12-bit target lies inside the address space (R44). -/
theorem addr16_lt (nnn : Addr12) : (addr16 nnn).toNat < 0x1000 := by
  have := nnn.isLt
  simp only [addr16, BitVec.toNat_ofNat]
  omega

/-- BNNN's target is reduced modulo 0x1000 (R65). -/
theorem jumpOffset_lt (v0 : Byte) (nnn : Addr12) : (jumpOffset v0 nnn).toNat < 0x1000 := by
  simp only [jumpOffset, BitVec.toNat_ofNat]
  omega

/-! ### What a completed instruction can do -/

/-- An instruction that completes: memory is stored to inside the address space if at all, the stack takes or loses one
entry if it changes, PC goes on, skips, jumps inside the address space or returns, and run changes only to a wait.
V, I, the timers, the screen and the count of draws are left open; nothing else changes. -/
structure Completes (s t : State) : Prop where
  memory : t.mem = s.mem ∨
    ∃ bs, s.i.toNat + bs.length ≤ Config.memSize ∧ t.mem = Memory.writeBytes s.mem s.i.toNat bs
  stack : t.stack = s.stack ∨ t.stack = s.stack.dropLast ∨
    s.stack.length < s.params.stackDepth ∧ t.stack = s.stack ++ [s.pc + 2#16]
  pc : t.pc = s.pc + 2#16 ∨ t.pc = s.pc + 2#16 + 2#16 ∨ t.pc.toNat < 0x1000 ∨ t.pc ∈ s.stack
  run : t.run = s.run ∨ ∃ x, t.run = .waitKey x
  rest : t = { s with
    mem := t.mem, v := t.v, i := t.i, pc := t.pc, stack := t.stack, dt := t.dt, st := t.st, fb := t.fb, run := t.run,
    draws := t.draws }

/-- An instruction that touches only V, I, the timers, the screen and the count of draws completes. -/
theorem completes_of_rest {s t : State} (h : t = { s.advance with
    v := t.v, i := t.i, dt := t.dt, st := t.st, fb := t.fb, draws := t.draws }) : Completes s t := by
  rw [h]
  exact ⟨.inl rfl, .inl rfl, .inl rfl, .inl rfl, rfl⟩

/-- A skip completes, taken or not (R18). -/
theorem completes_skipIf (s : State) (taken : Bool) : Completes s (s.advance.skipIf taken) := by
  refine ⟨.inl rfl, .inl rfl, ?_, .inl rfl, rfl⟩
  cases taken with
  | false => exact .inl rfl
  | true => exact .inr (.inl rfl)

/-- A jump inside the address space completes. -/
theorem completes_jump (s : State) {w : Word} (hw : w.toNat < 0x1000) : Completes s (s.advance.jump w) :=
  ⟨.inl rfl, .inl rfl, .inr (.inr (.inl hw)), .inl rfl, rfl⟩

/-- A store whose range was checked completes (R30). -/
theorem completes_storeBytes {s : State} {bs : List Byte} (h : rangeFault s.i.toNat bs.length = none) :
    Completes s (s.advance.storeBytes s.i.toNat bs) := by
  refine ⟨?_, .inl rfl, .inl rfl, .inl rfl, rfl⟩
  rcases of_rangeFault_none h with h0 | hin
  · rw [List.length_eq_zero_iff.mp h0]
    exact .inl rfl
  · exact .inr ⟨bs, hin, rfl⟩

/-- Everything an instruction can do: it raises a fatal fault or it completes. -/
theorem exec_faults_or_completes (i : Instr) (s : State) :
    ∃ t, exec i s = .next t ∧ ((∃ kind info, t = s.enterFault kind info) ∨ Completes s t) := by
  cases i with
  | ret =>
    rcases List.eq_nil_or_concat' s.stack with h | ⟨ws, w, h⟩
    · exact ⟨_, execRet_nil h, .inl ⟨_, _, rfl⟩⟩
    · refine ⟨_, execRet_append h, .inr ⟨.inl rfl, .inr (.inl ?_), .inr (.inr (.inr ?_)), .inl rfl, rfl⟩⟩
      · simp [h]
      · simp [h]
  | call nnn =>
    rcases Nat.lt_or_ge s.stack.length s.params.stackDepth with h | h
    · exact ⟨_, execCall_room nnn h,
        .inr ⟨.inl rfl, .inr (.inr ⟨h, rfl⟩), .inr (.inr (.inl (addr16_lt nnn))), .inl rfl, rfl⟩⟩
    · exact ⟨_, execCall_full nnn h, .inl ⟨_, _, rfl⟩⟩
  | drw x y n =>
    cases h : rangeFault s.i.toNat n.toNat with
    | none => exact ⟨_, execDrw_inRange x y h, .inr (completes_of_rest rfl)⟩
    | some a => exact ⟨_, execDrw_outOfRange x y h, .inl ⟨_, _, rfl⟩⟩
  | ldB x =>
    cases h : rangeFault s.i.toNat 3 with
    | none => exact ⟨_, execLdB_inRange x h, .inr (completes_storeBytes h)⟩
    | some a => exact ⟨_, execLdB_outOfRange x h, .inl ⟨_, _, rfl⟩⟩
  | ldMemV x =>
    cases h : rangeFault s.i.toNat (blockLen x) with
    | none => exact ⟨_, execLdMemV_inRange h, .inr (completes_storeBytes (by rwa [readBlock_length]))⟩
    | some a => exact ⟨_, execLdMemV_outOfRange h, .inl ⟨_, _, rfl⟩⟩
  | ldVMem x =>
    cases h : rangeFault s.i.toNat (blockLen x) with
    | none =>
      have hv : s.advance.loadBlock x = { s.advance with v := (s.advance.loadBlock x).v } := loadBlock_fields _ x
      exact ⟨_, execLdVMem_inRange h, .inr (completes_of_rest (by rw [hv]))⟩
    | some a => exact ⟨_, execLdVMem_outOfRange h, .inl ⟨_, _, rfl⟩⟩
  | jp nnn => exact ⟨_, rfl, .inr (completes_jump s (addr16_lt nnn))⟩
  | jpV0 nnn => exact ⟨_, rfl, .inr (completes_jump s (jumpOffset_lt _ nnn))⟩
  | seImm | sneImm | seReg | sneReg | skp | sknp => exact ⟨_, rfl, .inr (completes_skipIf s _)⟩
  | ldK x => exact ⟨_, rfl, .inr ⟨.inl rfl, .inl rfl, .inl rfl, .inr ⟨x, rfl⟩, rfl⟩⟩
  | _ => exact ⟨_, rfl, .inr (completes_of_rest rfl)⟩

/-- What a state answered by an instruction can be. -/
theorem exec_cases {i : Instr} {s t : State} (h : exec i s = .next t) :
    (∃ kind info, t = s.enterFault kind info) ∨ Completes s t :=
  of_exec_next h (exec_faults_or_completes i s)

end Sys2Proof.Machine
end

section
/-! ## The invariant (spec/10_state.md R18, R19, R22; spec/20_memory.md R28; spec/60_exceptions.md R98): one lemma per operation
of a step, then the step. -/

namespace Sys2Proof.Machine

/-! ### The press of a key changes the keypad alone (R108) -/

@[simp] theorem press_mem (s : State) (k : Nibble) : (s.press k).mem = s.mem := by rw [press_fields]
@[simp] theorem press_pc (s : State) (k : Nibble) : (s.press k).pc = s.pc := by rw [press_fields]
@[simp] theorem press_stack (s : State) (k : Nibble) : (s.press k).stack = s.stack := by rw [press_fields]
@[simp] theorem press_last (s : State) (k : Nibble) : (s.press k).last = some k := by rw [press_fields]
@[simp] theorem press_run (s : State) (k : Nibble) : (s.press k).run = s.run := by rw [press_fields]
@[simp] theorem press_diag (s : State) (k : Nibble) : (s.press k).diag = s.diag := by rw [press_fields]
@[simp] theorem press_params (s : State) (k : Nibble) : (s.press k).params = s.params := by rw [press_fields]

/-! ### The agents beside the CPU -/

theorem inv_dropInput {s : State} (h : Inv s) : Inv s.dropInput := { h with }
theorem inv_timerTick {s : State} (h : Inv s) : Inv s.timerTick := { h with }
theorem inv_quitNow {s : State} (h : Inv s) : Inv s.quitNow := { h with faultPc := nofun }

theorem inv_quirkTick {s : State} (h : Inv s) : Inv s.quirkTick := by
  rcases quirkTick_cases s with ht | ht
  · rwa [ht]
  · rw [ht]
    exact inv_timerTick h

/-- A free step of the timer engine is a tick or nothing (R104). -/
theorem freeTick_cases (s : State) : s.freeTick = s ∨ s.freeTick = s.timerTick := by
  unfold State.freeTick
  split
  · exact .inl rfl
  · exact .inr rfl

theorem inv_freeTick {s : State} (h : Inv s) : Inv s.freeTick := by
  rcases freeTick_cases s with ht | ht
  · rwa [ht]
  · rw [ht]
    exact inv_timerTick h

/-- A released key leaves at most the most-recent key pressed (R109). -/
theorem inv_keyUp {s : State} (k : Nibble) (h : Inv s) : Inv (s.keyUp k) := by
  refine { h with latch := fun j hj => h.latch j ?_ }
  rw [State.keyUp, isPressed_setPressed] at hj
  split at hj
  · cases hj
  · exact hj

/-- The single-key latch: a press releases the most-recent key, the only one that was pressed (R108). -/
theorem inv_press {s : State} (k : Nibble) (h : Inv s) : Inv (s.press k) := by
  have latch : ∀ j, (s.press k).isPressed j = true → (s.press k).last = some j := by
    intro j hj
    rw [isPressed_press] at hj
    rw [press_last]
    by_cases hjk : j = k
    · rw [hjk]
    · rw [if_neg hjk] at hj
      by_cases hl : s.last = some j
      · rw [if_pos hl] at hj
        cases hj
      · rw [if_neg hl] at hj
        exact absurd (h.latch j hj) hl
  rw [press_fields] at latch ⊢
  exact { h with latch }

/-- A key-down keeps the invariant, also where it completes FX0A (R93). -/
theorem inv_keyDown {s : State} (k : Nibble) (hl : s.live) (h : Inv s) : Inv (s.keyDown k) := by
  have hp := inv_press k h
  rcases hl with hr | ⟨x, hr⟩
  · rwa [keyDown_running k hr]
  · rw [keyDown_completes k hr]
    exact inv_quirkTick { hp with faultPc := nofun }

/-! ### The CPU step -/

/-- A fatal fault leaves PC at the instruction that raised it (R98). -/
theorem inv_enterFault {s : State} (kind : FaultKind) (info : Option Nat) (h : Inv s) : Inv (s.enterFault kind info) := by
  refine { h with faultPc := fun kind' addr hf => ?_ }
  cases hf
  rfl

/-- The fetch succeeds only below 0xFFF, so its PC advance stays within 0x1000 (R32). -/
theorem pc_add_two_le {s : State} (hpc : s.pc.toNat + 1 < 0x1000) : (s.pc + 2#16).toNat ≤ 0x1000 := by
  rw [BitVec.toNat_add]
  simp only [BitVec.toNat_ofNat]
  omega

/-- A running block has not faulted. -/
theorem not_faulted_of_running {s : State} (hr : s.run = .running) (kind : FaultKind) (addr : Word) :
    s.run ≠ .faulted kind addr := by
  rw [hr]
  nofun

theorem inv_reportUnknown {s : State} (w : Word) (h : Inv s) (hr : s.run = .running) (hpc : s.pc.toNat + 1 < 0x1000) :
    Inv (s.reportUnknown w) :=
  { h with
    pcBound := (pc_add_two_le hpc).trans (by decide)
    faultPc := fun kind addr hf => absurd hf (not_faulted_of_running hr kind addr) }

/-- What a completed instruction can do keeps the invariant: PC is at most a + 4 after a skip and a return address after
RET, and CALL pushes a + 2 below STACK_DEPTH. -/
theorem inv_completes {s t : State} (h : Inv s) (hr : s.run = .running) (hpc : s.pc.toNat + 1 < 0x1000)
    (hc : Completes s t) : Inv t := by
  have hpc2 := pc_add_two_le hpc
  have params : t.params = s.params := by rw [hc.rest]
  have pressed : t.pressed = s.pressed := by rw [hc.rest]
  have last : t.last = s.last := by rw [hc.rest]
  refine ⟨?memory, params ▸ h.depth, ?stackBound, ?returns, ?pcBound, ?latch, ?faultPc⟩
  case memory =>
    rcases hc.memory with hm | ⟨bs, hin, hm⟩
    · exact hm ▸ h.memory
    · exact hm ▸ writeBytes_wf _ _ h.memory hin
  case stackBound =>
    have := h.stackBound
    rcases hc.stack with hs | hs | ⟨hroom, hs⟩ <;> rw [hs, params]
    · exact this
    · rw [List.length_dropLast]
      omega
    · rw [List.length_append, List.length_singleton]
      omega
  case returns =>
    intro w hw
    rcases hc.stack with hs | hs | ⟨-, hs⟩ <;> rw [hs] at hw
    · exact h.returns w hw
    · exact h.returns w (List.mem_of_mem_dropLast hw)
    · rcases List.mem_append.mp hw with hw | hw
      · exact h.returns w hw
      · rwa [List.mem_singleton.mp hw]
  case pcBound =>
    rcases hc.pc with hp | hp | hp | hp
    · rw [hp]
      omega
    · rw [hp, BitVec.toNat_add]
      simp only [BitVec.toNat_ofNat]
      omega
    · omega
    · exact (h.returns _ hp).trans (by decide)
  case latch =>
    intro k hk
    rw [isPressed_congr pressed] at hk
    rw [last]
    exact h.latch k hk
  case faultPc =>
    intro kind addr hf
    rcases hc.run with hrun | ⟨x, hrun⟩
    · exact absurd (hrun ▸ hf) (not_faulted_of_running hr kind addr)
    · rw [hrun] at hf
      cases hf

/-- A CPU step keeps the invariant: a fetch fault, an instruction, or an unknown word (R50). -/
theorem inv_cpuStep {s t : State} (h : Inv s) (hr : s.run = .running) (ht : cpuStep s = .next t) : Inv t := by
  rcases cpuStep_cases ht with ⟨-, rfl⟩ | ⟨w, i, u, hw, -, hu, rfl⟩ | ⟨w, e, hw, -, rfl⟩
  · exact inv_enterFault _ _ h
  · apply inv_quirkTick
    rcases exec_cases hu with ⟨kind, info, rfl⟩ | hc
    · exact inv_enterFault kind info h
    · exact inv_completes h hr (pc_lt_of_fetch16 hw) hc
  · exact inv_quirkTick (inv_reportUnknown w h hr (pc_lt_of_fetch16 hw))

/-! ### The step -/

/-- Settles O54, by the agent that the next input enables. -/
theorem everyStepKeepsTheInvariant : Obligations.EveryStepKeepsTheInvariant := by
  intro s t h ht
  have hd := inv_dropInput h
  obtain ⟨hl, hcases⟩ := step_cases ht
  rcases hcases with ⟨-, hr, hcpu⟩ | ⟨x, -, -, rfl⟩ | ⟨-, rfl⟩ | ⟨k, -, rfl⟩ | ⟨k, -, rfl⟩ | ⟨-, rfl⟩
  · exact inv_cpuStep hd hr hcpu
  · exact hd
  · exact inv_freeTick hd
  · exact inv_keyDown k hl hd
  · exact inv_keyUp k hd
  · exact inv_quitNow hd

/-- Settles O52: memory lists nothing at reset, the stack is empty and no key is pressed. -/
theorem invariantAtReset : Obligations.InvariantAtReset where
  memory := reset_mem_wf
  depth := by decide
  stackBound := by decide
  returns := nofun
  pcBound := by decide
  latch := by decide
  faultPc := nofun

end Sys2Proof.Machine
end

section
/-! ## Reports, VF and what no instruction reads (spec/10_state.md R16, R20, R22, R24): statements about every step or every
instruction, each from what the operations do. -/

namespace Sys2Proof.Machine

/-! ### Parameters and reports (R24, R25) -/

@[simp] theorem quirkTick_params (s : State) : s.quirkTick.params = s.params := by
  rcases quirkTick_cases s with h | h <;> rw [h]
  rfl

@[simp] theorem quirkTick_diag (s : State) : s.quirkTick.diag = s.diag := by
  rcases quirkTick_cases s with h | h <;> rw [h]
  rfl

/-- The parameters are kept, and diag is kept or takes one report. -/
def ReportsAtMostOnce (s t : State) : Prop := t.params = s.params ∧ (t.diag = s.diag ∨ ∃ d, t.diag = s.diag ++ [d])

theorem reportsAtMostOnce_of_kept {s t : State} (hp : t.params = s.params) (hd : t.diag = s.diag) :
    ReportsAtMostOnce s t := ⟨hp, .inl hd⟩

/-- The tick of the quirk reports nothing. -/
theorem reportsAtMostOnce_quirkTick {s t : State} (h : ReportsAtMostOnce s t) : ReportsAtMostOnce s t.quirkTick := by
  unfold ReportsAtMostOnce
  rwa [quirkTick_params, quirkTick_diag]

theorem reportsAtMostOnce_enterFault (s : State) (kind : FaultKind) (info : Option Nat) :
    ReportsAtMostOnce s (s.enterFault kind info) := ⟨rfl, .inr ⟨_, rfl⟩⟩

theorem reportsAtMostOnce_cpuStep {s t : State} (h : cpuStep s = .next t) : ReportsAtMostOnce s t := by
  rcases cpuStep_cases h with ⟨-, rfl⟩ | ⟨w, i, u, -, -, hu, rfl⟩ | ⟨w, e, -, -, rfl⟩
  · exact reportsAtMostOnce_enterFault s _ _
  · apply reportsAtMostOnce_quirkTick
    rcases exec_cases hu with ⟨kind, info, rfl⟩ | hc
    · exact reportsAtMostOnce_enterFault s kind info
    · exact reportsAtMostOnce_of_kept (by rw [hc.rest]) (by rw [hc.rest])
  · exact reportsAtMostOnce_quirkTick ⟨rfl, .inr ⟨_, rfl⟩⟩

/-- A key-down reports nothing, also where it completes FX0A. -/
theorem reportsAtMostOnce_keyDown {s : State} (k : Nibble) (hl : s.live) : ReportsAtMostOnce s (s.keyDown k) := by
  rcases hl with hr | ⟨x, hr⟩
  · rw [keyDown_running k hr]
    exact reportsAtMostOnce_of_kept (press_params s k) (press_diag s k)
  · rw [keyDown_completes k hr]
    exact reportsAtMostOnce_quirkTick (reportsAtMostOnce_of_kept (press_params s k) (press_diag s k))

/-- Settles O55: only a CPU step reports, and it does so at a fetch fault, at an instruction's fatal fault or at an unknown
word. -/
theorem diagOnlyGrows : Obligations.DiagOnlyGrows := by
  intro s t ht
  change ReportsAtMostOnce s.dropInput t
  obtain ⟨hl, hcases⟩ := step_cases ht
  rcases hcases with ⟨-, -, hcpu⟩ | ⟨x, -, -, rfl⟩ | ⟨-, rfl⟩ | ⟨k, -, rfl⟩ | ⟨k, -, rfl⟩ | ⟨-, rfl⟩
  · exact reportsAtMostOnce_cpuStep hcpu
  · exact reportsAtMostOnce_of_kept rfl rfl
  · rcases freeTick_cases s.dropInput with h | h <;> rw [h] <;> exact reportsAtMostOnce_of_kept rfl rfl
  · exact reportsAtMostOnce_keyDown k hl
  · exact reportsAtMostOnce_of_kept rfl rfl
  · exact reportsAtMostOnce_of_kept rfl rfl

/-! ### The writes of VF (R16, R122) -/

/-- A write to a destination other than VF leaves VF. -/
theorem readV_vf_writeV {s : State} {x : Nibble} (b : Byte) (hx : some x ≠ some vf) : (s.writeV x b).readV vf = s.readV vf :=
  readV_writeV_other s b fun e => hx (congrArg some e.symm)

/-- The block load reaches VF only where it names VF as its last register (R84). -/
theorem readV_vf_loadBlock {s : State} {x : Nibble} (hx : some x ≠ some vf) : (s.loadBlock x).readV vf = s.readV vf := by
  have hne : x.toNat ≠ 15 := fun e => hx (congrArg some (BitVec.eq_of_toNat_eq e))
  have := x.isLt
  rw [readV_loadBlock, if_neg]
  change ¬ 15 ≤ x.toNat
  omega

/-- An instruction that is no flag writer and does not name VF leaves VF. -/
theorem exec_keeps_vf {i : Instr} (s : State) (hf : writesFlag i = false) (hd : destReg i ≠ some vf) :
    ∃ t, exec i s = .next t ∧ t.readV vf = s.readV vf := by
  cases i with
  | addReg | subReg | shr | subnReg | shl | addI | drw => cases hf
  | ldImm | addImm | ldReg | orReg | andReg | xorReg | rnd | ldVDt => exact ⟨_, rfl, readV_vf_writeV _ hd⟩
  | ldVMem x =>
    cases h : rangeFault s.i.toNat (blockLen x) with
    | none => exact ⟨_, execLdVMem_inRange h, readV_vf_loadBlock hd⟩
    | some a => exact ⟨_, execLdVMem_outOfRange h, rfl⟩
  | ret =>
    rcases List.eq_nil_or_concat' s.stack with h | ⟨ws, w, h⟩
    · exact ⟨_, execRet_nil h, rfl⟩
    · exact ⟨_, execRet_append h, rfl⟩
  | call nnn =>
    rcases Nat.lt_or_ge s.stack.length s.params.stackDepth with h | h
    · exact ⟨_, execCall_room nnn h, rfl⟩
    · exact ⟨_, execCall_full nnn h, rfl⟩
  | ldB x =>
    cases h : rangeFault s.i.toNat 3 with
    | none => exact ⟨_, execLdB_inRange x h, rfl⟩
    | some a => exact ⟨_, execLdB_outOfRange x h, rfl⟩
  | ldMemV x =>
    cases h : rangeFault s.i.toNat (blockLen x) with
    | none => exact ⟨_, execLdMemV_inRange h, rfl⟩
    | some a => exact ⟨_, execLdMemV_outOfRange h, rfl⟩
  | _ => exact ⟨_, rfl, rfl⟩

/-- The write of VF leaves 0 or 1 in it. -/
theorem readV_vf_setVf (s : State) (flag : Bool) : (s.setVf flag).readV vf = 0#8 ∨ (s.setVf flag).readV vf = 1#8 := by
  rw [readV_setVf, if_pos rfl]
  cases flag with
  | false => exact .inl rfl
  | true => exact .inr rfl

/-- A flag writer ends with the write of VF, unless it faults (DXYN alone can). -/
theorem exec_writes_flag_last {i : Instr} (s : State) (hf : writesFlag i = true) :
    ∃ t, exec i s = .next t ∧ ((∃ kind addr, t.run = .faulted kind addr) ∨ ∃ u flag, t = State.setVf u flag) := by
  cases i with
  | addReg | subReg | shr | subnReg | shl | addI => exact ⟨_, rfl, .inr ⟨_, _, rfl⟩⟩
  | drw x y n =>
    cases h : rangeFault s.i.toNat n.toNat with
    | none => exact ⟨_, execDrw_inRange x y h, .inr ⟨_, _, rfl⟩⟩
    | some a => exact ⟨_, execDrw_outOfRange x y h, .inl ⟨_, _, rfl⟩⟩
  | _ => cases hf

/-- Settles O57: the seven end with the write of VF, and no other instruction reaches it without naming it. -/
theorem onlyTheSevenWriteVfAsAFlag : Obligations.OnlyTheSevenWriteVfAsAFlag := by
  intro i s t h
  refine ⟨fun hf hd => of_exec_next h (exec_keeps_vf s hf hd), fun hf hnf => ?_⟩
  rcases of_exec_next h (exec_writes_flag_last s hf) with ⟨kind, addr, hrun⟩ | ⟨u, flag, rfl⟩
  · exact absurd hrun (hnf kind addr)
  · exact readV_vf_setVf u flag

/-! ### What no instruction reads (R20, R22, R24) -/

/-- The registers after a block load are those before, I and the bytes of memory. -/
theorem loadBlock_v_congr {s t : State} (x : Nibble) (hv : t.v = s.v) (hi : t.i = s.i) (hm : t.mem = s.mem) :
    (t.loadBlock x).v = (s.loadBlock x).v := by
  apply Vector.ext
  intro k hk
  have hread : (t.loadBlock x).readV (BitVec.ofNat 4 k) = (s.loadBlock x).readV (BitVec.ofNat 4 k) := by
    rw [readV_loadBlock, readV_loadBlock, readV_congr hv, readMem_congr hm, hi]
  have hmod : k % 16 = k := Nat.mod_eq_of_lt hk
  simpa [State.readV, hmod] using hread

/-- FX65 loads the same registers in two states with the same registers, I and memory. -/
theorem execLdVMem_congr {s t : State} {x : Nibble} (h : rangeFault s.i.toNat (blockLen x) = none)
    (hv : t.v = s.v) (hi : t.i = s.i) (hm : t.mem = s.mem) :
    execLdVMem x t = .next { t.advance with v := (s.advance.loadBlock x).v } := by
  have hload : (t.advance.loadBlock x).v = (s.advance.loadBlock x).v := loadBlock_v_congr x hv hi hm
  rw [execLdVMem_inRange (hi ▸ h), loadBlock_fields, hload]

/-- Settles O59: whether an instruction faults, and what it writes, depends on the other fields alone. -/
theorem noInstructionReadsStToneDiagOrLast : Obligations.NoInstructionReadsStToneDiagOrLast := by
  intro i s st tone diag last
  cases i with
  | ret =>
    rcases List.eq_nil_or_concat' s.stack with h | ⟨ws, w, h⟩
    · exact ⟨_, _, execRet_nil h, execRet_nil h, rfl⟩
    · exact ⟨_, _, execRet_append h, execRet_append h, rfl⟩
  | call nnn =>
    rcases Nat.lt_or_ge s.stack.length s.params.stackDepth with h | h
    · exact ⟨_, _, execCall_room nnn h, execCall_room nnn h, rfl⟩
    · exact ⟨_, _, execCall_full nnn h, execCall_full nnn h, rfl⟩
  | drw x y n =>
    cases h : rangeFault s.i.toNat n.toNat with
    | none => exact ⟨_, _, execDrw_inRange x y h, execDrw_inRange x y h, rfl⟩
    | some a => exact ⟨_, _, execDrw_outOfRange x y h, execDrw_outOfRange x y h, rfl⟩
  | ldB x =>
    cases h : rangeFault s.i.toNat 3 with
    | none => exact ⟨_, _, execLdB_inRange x h, execLdB_inRange x h, rfl⟩
    | some a => exact ⟨_, _, execLdB_outOfRange x h, execLdB_outOfRange x h, rfl⟩
  | ldMemV x =>
    cases h : rangeFault s.i.toNat (blockLen x) with
    | none => exact ⟨_, _, execLdMemV_inRange h, execLdMemV_inRange h, rfl⟩
    | some a => exact ⟨_, _, execLdMemV_outOfRange h, execLdMemV_outOfRange h, rfl⟩
  | ldVMem x =>
    cases h : rangeFault s.i.toNat (blockLen x) with
    | none => exact ⟨_, _, execLdVMem_congr h rfl rfl rfl, execLdVMem_congr h rfl rfl rfl, rfl⟩
    | some a => exact ⟨_, _, execLdVMem_outOfRange h, execLdVMem_outOfRange h, rfl⟩
  | _ => exact ⟨_, _, rfl, rfl, rfl⟩

end Sys2Proof.Machine
end

section
/-! ## The ends of a run and its beginning (spec/60_exceptions.md R98, R112; spec/10_state.md R27). -/

namespace Sys2Proof.Machine

/-- Settles O11: a boundary in a final state looks at no input (R56). -/
theorem faultedAndQuitAreFinal : Obligations.FaultedAndQuitAreFinal := by
  intro s
  constructor
  · intro kind addr h
    simp only [step, boundaryStep, h]
  · intro h
    simp only [step, boundaryStep, h]

/-- Beside the 80 bytes of the font, memory is zero at reset (R27, R35). -/
theorem resetByte_outside_font {a : Nat} (h : a < 0x050 ∨ 0x0A0 ≤ a) : resetByte a = 0#8 := by
  have hlen : fontBytes.length = 80 := by decide
  unfold resetByte
  split
  · next hle =>
    apply List.getD_eq_default
    rw [hlen]
    simp only [Config.fontBase] at hle ⊢
    omega
  · rfl

/-- Settles O50: each value of R27, memory and the screen through their reads. -/
theorem resetValues : Obligations.ResetValues :=
  ⟨fun _ h => resetByte_outside_font h, fun _ => Vector.getElem_replicate _, rfl, rfl, rfl, rfl, rfl, pixel_blankScreen,
    fun _ => Vector.getElem_replicate _, rfl, rfl, rfl, rfl⟩

end Sys2Proof.Machine
end

section
/-! ## Memory: the fetch beyond it and the store that the next fetch sees (spec/20_memory.md R31, R32, R40). -/

namespace Sys2Proof.Machine

/-! ### The fetch that faults (R32) -/

/-- The entry into a fatal fault changes run and diag alone (R98). -/
theorem frame_enterFault (s : State) (kind : FaultKind) (info : Option Nat) :
    Frame [] [.run, .diag] s (s.enterFault kind info) := by
  apply frame_of_fields
  case hv => exact fun _ _ => rfl
  case run => exact fun h => absurd (by decide) h
  case diag => exact fun h => absurd (by decide) h
  all_goals exact fun _ => rfl

/-- A CPU step whose fetch fails is the fault entry alone, with no tick of the quirk after it (R32, R104). -/
theorem cpuStep_of_fetch16_none {s : State} (h : s.fetch16 = none) :
    cpuStep s = .next (s.enterFault .memoryFault (some s.pc.toNat)) := by
  simp only [cpuStep, h]

/-- Settles O9: taking the strobe leaves PC, so the CPU step's fetch fails at the same address. -/
theorem fetchBeyondMemoryFaults : Obligations.FetchBeyondMemoryFaults := by
  intro s hr hn hpc
  have hstep : step s = .next (s.dropInput.enterFault .memoryFault (some s.pc.toNat)) :=
    (step_cycle hr hn).trans (cpuStep_of_fetch16_none (fetch16_none hpc))
  exact ⟨_, hstep, rfl, rfl, rfl, frame_enterFault s.dropInput _ _⟩

/-! ### A store as the reads after it see it (R37) -/

/-- After a store every address reads its byte of the run where the run reaches it, and its old byte elsewhere. -/
theorem readMem_storeBytes (s : State) (base : Nat) (bs : List Byte) (hm : Memory.wf s.mem) (a : Nat) :
    (s.storeBytes base bs).readMem a =
      if h : base ≤ a ∧ a - base < bs.length then bs[a - base]'h.2 else s.readMem a := by
  by_cases h : base ≤ a ∧ a - base < bs.length
  · rw [dif_pos h, ← readMem_storeBytes_inside s base bs hm (a - base) h.2, Nat.add_sub_cancel' h.1]
  · rw [dif_neg h, readMem_storeBytes_outside s base bs a (by omega)]

/-- What FX55's store leaves to read is `blockByte` (R83). -/
theorem readMem_storeBytes_readBlock {s : State} (x : Nibble) (hm : Memory.wf s.mem) (a : Nat) :
    (s.advance.storeBytes s.i.toNat (s.readBlock x)).readMem a = blockByte s x a := by
  rw [readMem_storeBytes s.advance _ _ hm, blockByte]
  by_cases h : s.i.toNat ≤ a ∧ a ≤ s.i.toNat + x.toNat
  · have hin : s.i.toNat ≤ a ∧ a - s.i.toNat < (s.readBlock x).length := by
      rw [readBlock_length]
      omega
    rw [dif_pos hin, if_pos h, readBlock_getElem]
  · have hout : ¬ (s.i.toNat ≤ a ∧ a - s.i.toNat < (s.readBlock x).length) := by
      rw [readBlock_length]
      omega
    rw [dif_neg hout, if_neg h, readMem_advance]

/-- What FX33's store leaves to read is `bcdByte` (R82). -/
theorem readMem_storeBytes_bcdDigits {s : State} (x : Nibble) (hm : Memory.wf s.mem) (a : Nat) :
    (s.advance.storeBytes s.i.toNat (bcdDigits (s.readV x))).readMem a = bcdByte s x a := by
  have hdigit := readMem_storeBytes_inside s.advance s.i.toNat (bcdDigits (s.readV x)) hm
  unfold bcdByte
  by_cases h0 : a = s.i.toNat
  · rw [if_pos h0, h0]
    exact hdigit 0 (by simp)
  by_cases h1 : a = s.i.toNat + 1
  · rw [if_neg h0, if_pos h1, h1]
    exact hdigit 1 (by simp)
  by_cases h2 : a = s.i.toNat + 2
  · rw [if_neg h0, if_neg h1, if_pos h2, h2]
    exact hdigit 2 (by simp)
  · rw [if_neg h0, if_neg h1, if_neg h2]
    apply readMem_storeBytes_outside
    rw [bcdDigits_length]
    omega

/-! ### The fetch after a store (R40) -/

/-- The fetch at a + 2 reads the word of the bytes at a + 2 and a + 3 (R31, R32). -/
theorem fetch16_of_pc_advanced {s t : State} (hpc : s.pc.toNat + 3 < 0x1000) (ht : t.pc = s.pc + 2#16) :
    t.fetch16 = some (bigEndian (t.readMem (s.pc.toNat + 2)) (t.readMem (s.pc.toNat + 3))) := by
  have hnext : t.pc.toNat = s.pc.toNat + 2 := by
    rw [ht, BitVec.toNat_add]
    simp only [BitVec.toNat_ofNat]
    omega
  rw [fetch16_some (by omega), hnext]

/-- Settles O35: the store's bytes are `blockByte` or `bcdByte` at every address, so at the two of the next fetch. -/
theorem storeIsSeenByTheNextFetch : Obligations.StoreIsSeenByTheNextFetch := by
  intro x s hm hpc
  constructor
  · intro hin
    have hrange : rangeFault s.i.toNat (blockLen x) = none := rangeFault_none hin
    refine ⟨_, execLdMemV_inRange hrange, ?_⟩
    rw [fetch16_of_pc_advanced hpc rfl, readMem_storeBytes_readBlock x hm, readMem_storeBytes_readBlock x hm]
  · intro hin
    have hrange : rangeFault s.i.toNat 3 = none := rangeFault_none hin
    refine ⟨_, execLdB_inRange x hrange, ?_⟩
    rw [fetch16_of_pc_advanced hpc rfl, readMem_storeBytes_bcdDigits x hm, readMem_storeBytes_bcdDigits x hm]

end Sys2Proof.Machine
end

section
/-! ## Encoding (spec/30_encoding.md R42 to R48): decoding an encoded word, one inversion of the decoder, and the rows of the
opcode table a word selects. -/

namespace Sys2Proof

/-! ### Decoding an encoded word (R45) -/

/-- Decoding the word of an instruction gives the instruction: op, n and nn of the word are the row's constants, and the
other fields are the operands. -/
theorem decodeWord_encodeWord (i : Instr) : decodeWord (encodeWord i) = .ok i := by
  cases i with
  | cls | ret => rfl
  | jp | call | ldI | jpV0 | seImm | sneImm | ldImm | addImm | rnd | seReg | sneReg | drw =>
    simp [encodeWord, decodeWord]
  | ldReg | orReg | andReg | xorReg | addReg | subReg | shr | subnReg | shl =>
    simp [encodeWord, decodeWord, decodeGroup8]
  | skp | sknp => simp [encodeWord, decodeWord, decodeGroupE]
  | ldVDt | ldK | ldDtV | ldStV | addI | ldF | ldB | ldMemV | ldVMem =>
    simp [encodeWord, decodeWord, decodeGroupF]

/-- Settles O1: the two bytes are the encoded word again, read big-endian. -/
theorem decodeOfEncodeIsIdentity : Obligations.DecodeOfEncodeIsIdentity := by
  intro i rest
  simp only [encode, List.cons_append, List.nil_append, decode, bigEndian_bytes, decodeWord_encodeWord]

/-! ### Inverting the decoder (R46, R47) -/

/-- What the decoder may answer to a word: an instruction that encodes to it, or the refusal that names it. -/
inductive AnswersWord (w : Word) : Except DecodeError Instr → Prop
  | known {i : Instr} (h : encodeWord i = w) : AnswersWord w (.ok i)
  | unknown : AnswersWord w (.error (.unknownOpcode w))

/-- A test of the decoder answers the word where the instruction it selects encodes to it and the tests after it do. -/
theorem AnswersWord.ite {w : Word} {c : Prop} [Decidable c] {i : Instr} {r : Except DecodeError Instr}
    (hi : c → encodeWord i = w) (hr : AnswersWord w r) : AnswersWord w (if c then .ok i else r) := by
  split
  · next h => exact .known (hi h)
  · exact hr

/-! A word written back from its fields, where the decoder's test has fixed op, n or nn (R43). -/

theorem opNnn_eq_word {w : Word} {k : Nibble} (hop : (opField w).toNat = k.toNat) : k ++ nnnField w = w := by
  rw [← BitVec.eq_of_toNat_eq hop]
  exact (word_eq_opNnn w).symm

theorem opXNn_eq_word {w : Word} {k : Nibble} {nn : Byte} (hop : (opField w).toNat = k.toNat) (hnn : nnField w = nn) :
    k ++ xField w ++ nn = w := by
  rw [← BitVec.eq_of_toNat_eq hop, ← hnn]
  exact (word_eq_opXNn w).symm

theorem nibbles_eq_word {w : Word} {k n : Nibble} (hop : (opField w).toNat = k.toNat) (hn : nField w = n) :
    k ++ xField w ++ yField w ++ n = w := by
  rw [← BitVec.eq_of_toNat_eq hop, ← hn]
  exact (word_eq_nibbles w).symm

theorem decodeGroup0_answers (w : Word) : AnswersWord w (decodeGroup0 w) :=
  .ite Eq.symm (.ite Eq.symm .unknown)

theorem decodeGroup8_answers {w : Word} (hop : (opField w).toNat = 0x8) : AnswersWord w (decodeGroup8 w) := by
  unfold decodeGroup8
  split
  case h_10 => exact .unknown
  all_goals exact .known (nibbles_eq_word hop (BitVec.eq_of_toNat_eq ‹_›))

theorem decodeGroupE_answers {w : Word} (hop : (opField w).toNat = 0xE) : AnswersWord w (decodeGroupE w) :=
  have hw {nn : Byte} (hnn : nnField w = nn) : (0xE#4 ++ xField w ++ nn : Word) = w := opXNn_eq_word hop hnn
  .ite hw (.ite hw .unknown)

theorem decodeGroupF_answers {w : Word} (hop : (opField w).toNat = 0xF) : AnswersWord w (decodeGroupF w) :=
  have hw {nn : Byte} (hnn : nnField w = nn) : (0xF#4 ++ xField w ++ nn : Word) = w := opXNn_eq_word hop hnn
  .ite hw (.ite hw (.ite hw (.ite hw (.ite hw (.ite hw (.ite hw (.ite hw (.ite hw .unknown))))))))

/-- The decoder, inverted: every answer is an instruction that encodes to the word, or the refusal that names the word. -/
theorem decodeWord_answers (w : Word) : AnswersWord w (decodeWord w) := by
  unfold decodeWord
  split
  case h_1 => exact decodeGroup0_answers w
  case h_2 | h_3 | h_11 | h_12 => exact .known (opNnn_eq_word ‹_›)
  case h_4 | h_5 | h_7 | h_8 | h_13 => exact .known (opXNn_eq_word ‹_› rfl)
  case h_6 | h_10 => exact .ite (nibbles_eq_word ‹_›) .unknown
  case h_9 => exact decodeGroup8_answers ‹_›
  case h_14 => exact .known (nibbles_eq_word ‹_› rfl)
  case h_15 => exact decodeGroupE_answers ‹_›
  case h_16 =>
    have hlt := (opField w).isLt
    simp only [imp_false] at *
    exact decodeGroupF_answers (by omega)

theorem encodeWord_of_decodeWord {w : Word} {i : Instr} (h : decodeWord w = .ok i) : encodeWord i = w := by
  have ha := decodeWord_answers w
  rw [h] at ha
  cases ha with
  | known hi => exact hi

/-- Settles O2: it is the known case of the decoder's inversion. -/
theorem encodeOfDecodeIsIdentity : Obligations.EncodeOfDecodeIsIdentity := fun _ _ => encodeWord_of_decodeWord

/-! ### The row a word selects (R45, R46) -/

/-- The word of an instruction selects its row: the per-instruction family, put together. -/
theorem encodeWord_selects (i : Instr) : encodeWord i &&& rowMask i = rowMatch i := by
  cases i with
  | cls => exact Laws.SelectsRow.cls
  | ret => exact Laws.SelectsRow.ret
  | jp => exact Laws.SelectsRow.jp _
  | call => exact Laws.SelectsRow.call _
  | seImm => exact Laws.SelectsRow.seImm _ _
  | sneImm => exact Laws.SelectsRow.sneImm _ _
  | seReg => exact Laws.SelectsRow.seReg _ _
  | ldImm => exact Laws.SelectsRow.ldImm _ _
  | addImm => exact Laws.SelectsRow.addImm _ _
  | ldReg => exact Laws.SelectsRow.ldReg _ _
  | orReg => exact Laws.SelectsRow.orReg _ _
  | andReg => exact Laws.SelectsRow.andReg _ _
  | xorReg => exact Laws.SelectsRow.xorReg _ _
  | addReg => exact Laws.SelectsRow.addReg _ _
  | subReg => exact Laws.SelectsRow.subReg _ _
  | shr => exact Laws.SelectsRow.shr _ _
  | subnReg => exact Laws.SelectsRow.subnReg _ _
  | shl => exact Laws.SelectsRow.shl _ _
  | sneReg => exact Laws.SelectsRow.sneReg _ _
  | ldI => exact Laws.SelectsRow.ldI _
  | jpV0 => exact Laws.SelectsRow.jpV0 _
  | rnd => exact Laws.SelectsRow.rnd _ _
  | drw => exact Laws.SelectsRow.drw _ _ _
  | skp => exact Laws.SelectsRow.skp _
  | sknp => exact Laws.SelectsRow.sknp _
  | ldVDt => exact Laws.SelectsRow.ldVDt _
  | ldK => exact Laws.SelectsRow.ldK _
  | ldDtV => exact Laws.SelectsRow.ldDtV _
  | ldStV => exact Laws.SelectsRow.ldStV _
  | addI => exact Laws.SelectsRow.addI _
  | ldF => exact Laws.SelectsRow.ldF _
  | ldB => exact Laws.SelectsRow.ldB _
  | ldMemV => exact Laws.SelectsRow.ldMemV _
  | ldVMem => exact Laws.SelectsRow.ldVMem _

section
variable {w mask mtch : Word} (h : w &&& mask = mtch)
include h

/-- Where the mask covers a field, the word has the match's field. -/
theorem extractLsb'_of_selects {start len : Nat} (hm : mask.extractLsb' start len = BitVec.allOnes len) :
    w.extractLsb' start len = mtch.extractLsb' start len := by
  rw [← h, BitVec.extractLsb'_and, hm, BitVec.and_allOnes]

theorem opField_of_selects (hm : opField mask = 0xF#4) : opField w = opField mtch := extractLsb'_of_selects h hm
theorem nField_of_selects (hm : nField mask = 0xF#4) : nField w = nField mtch := extractLsb'_of_selects h hm
theorem nnField_of_selects (hm : nnField mask = 0xFF#8) : nnField w = nnField mtch := extractLsb'_of_selects h hm

end

/-- Every row's mask covers op. -/
theorem opField_rowMask (j : Instr) : opField (rowMask j) = 0xF#4 := by
  cases j <;> rw [rowMask] <;> rfl

/-- A word that selects a row decodes to an instruction of it: op, n and nn are the row's as far as its mask covers them,
and these are the fields that the decoder tests. -/
theorem decodeWord_of_selects {w : Word} {j : Instr} (h : w &&& rowMask j = rowMatch j) :
    ∃ i, decodeWord w = .ok i ∧ rowMask i = rowMask j ∧ rowMatch i = rowMatch j := by
  have hop := opField_of_selects h (opField_rowMask j)
  cases j
  all_goals simp only [rowMask, rowMatch] at h hop
  case cls | ret =>
    obtain rfl := BitVec.and_allOnes.symm.trans h
    exact ⟨_, rfl, rfl, rfl⟩
  case jp | call | seImm | sneImm | ldImm | addImm | ldI | jpV0 | rnd | drw =>
    rw [decodeWord, hop]
    exact ⟨_, rfl, rfl, rfl⟩
  case seReg | sneReg =>
    rw [decodeWord, hop, nField_of_selects h rfl]
    exact ⟨_, rfl, rfl, rfl⟩
  case ldReg | orReg | andReg | xorReg | addReg | subReg | shr | subnReg | shl =>
    rw [decodeWord, hop, decodeGroup8, nField_of_selects h rfl]
    exact ⟨_, rfl, rfl, rfl⟩
  case skp | sknp =>
    rw [decodeWord, hop, decodeGroupE, nnField_of_selects h rfl]
    exact ⟨_, rfl, rfl, rfl⟩
  case ldVDt | ldK | ldDtV | ldStV | addI | ldF | ldB | ldMemV | ldVMem =>
    rw [decodeWord, hop, decodeGroupF, nnField_of_selects h rfl]
    exact ⟨_, rfl, rfl, rfl⟩

/-- A word selects the row of the instruction it decodes to. -/
theorem selects_of_decodeWord {w : Word} {i : Instr} (h : decodeWord w = .ok i) : w &&& rowMask i = rowMatch i := by
  rw [← encodeWord_of_decodeWord h]
  exact encodeWord_selects i

/-- Settles O3: a selected row fixes the fields the decoder tests, and the word of an instruction selects its row. -/
theorem decoderSelectsRowByMaskAndMatch : Obligations.DecoderSelectsRowByMaskAndMatch := by
  intro w j
  constructor
  · exact decodeWord_of_selects
  · rintro ⟨i, hi, hmask, hmatch⟩
    rw [← hmask, ← hmatch]
    exact selects_of_decodeWord hi

/-- Settles O4: the decoder's inversion is the dichotomy, and an instruction's own row tells the two cases apart. -/
theorem unknownExactlyWhenNoRowMatches : Obligations.UnknownExactlyWhenNoRowMatches := by
  intro w
  have ha := decodeWord_answers w
  generalize hr : decodeWord w = r at ha ⊢
  cases ha with
  | @known i hi =>
    have hsel := selects_of_decodeWord hr
    exact ⟨.inl ⟨i, rfl⟩, nofun, fun hnone => absurd hsel (hnone i)⟩
  | unknown =>
    refine ⟨.inr rfl, fun _ j hj => ?_, fun _ => rfl⟩
    obtain ⟨i, hi, -, -⟩ := decodeWord_of_selects hj
    rw [hr] at hi
    cases hi

/-- Settles O5: the decoder evaluates each word of the list. -/
theorem sampleWordsDecode : Obligations.SampleWordsDecode := by
  unfold Obligations.SampleWordsDecode
  decide

end Sys2Proof
end

section
/-! ## The dispatcher (spec/40_dispatcher.md R50 to R56): what a cycle strobe does to a block that runs or waits, and where a
plain instruction leaves PC. -/

namespace Sys2Proof.Machine

/-! ### The CPU step, an equation per answer of the decoder (R50, R55) -/

/-- A CPU step whose word decodes runs the instruction, and the tick of the quirk after it. -/
theorem cpuStep_of_decodeWord_ok {s : State} {w : Word} {i : Instr} (hf : s.fetch16 = some w)
    (hd : decodeWord w = .ok i) : cpuStep s = afterCpu (exec i s) := by
  simp only [cpuStep, hf, hd]

/-- A CPU step whose word is unknown reports it, and the tick of the quirk follows. -/
theorem cpuStep_of_decodeWord_error {s : State} {w : Word} {e : DecodeError} (hf : s.fetch16 = some w)
    (hd : decodeWord w = .error e) : cpuStep s = .next (s.reportUnknown w).quirkTick := by
  simp only [cpuStep, hf, hd, afterCpu]

/-- With QUIRK_TIMER_PER_INSTRUCTION false nothing follows an instruction, since none changes the parameter (R104). -/
theorem afterCpu_exec_off (i : Instr) {s : State} (hq : s.params.quirkTimerPerInstruction = false) :
    afterCpu (exec i s) = exec i s := by
  obtain ⟨t, ht, hcases⟩ := exec_faults_or_completes i s
  have hparams : t.params = s.params := by
    rcases hcases with ⟨kind, info, rfl⟩ | hc
    · exact enterFault_params s kind info
    · rw [hc.rest]
  rw [ht, afterCpu, quirkTick_off (hparams ▸ hq)]

/-! ### The step at a cycle strobe (R50, R55, R56) -/

section
variable {s : State} (hr : s.run = .running) (hn : s.nextInput = .cycle) (hpc : s.pc.toNat + 1 < 0x1000)
include hr hn hpc

/-- A step at a cycle strobe runs the instruction that the bytes at PC decode to. -/
theorem step_of_decode_ok {i : Instr} (hd : decode [s.readMem s.pc.toNat, s.readMem (s.pc.toNat + 1)] = .ok (i, [])) :
    step s = afterCpu (exec i s.dropInput) :=
  (step_cycle hr hn).trans (cpuStep_of_decodeWord_ok (fetch16_some hpc) (decode_pair.mp hd))

/-- A step at a cycle strobe passes over a word at PC that matches no row, with its report (R47). -/
theorem step_of_no_row {w : Word} (hw : bigEndian (s.readMem s.pc.toNat) (s.readMem (s.pc.toNat + 1)) = w)
    (hrow : ∀ j, w &&& rowMask j ≠ rowMatch j) : step s = .next (s.dropInput.reportUnknown w).quirkTick := by
  have hfetch : s.dropInput.fetch16 = some w := (fetch16_some hpc).trans (congrArg some hw)
  have hunknown := (unknownExactlyWhenNoRowMatches w).2.mpr hrow
  exact (step_cycle hr hn).trans (cpuStep_of_decodeWord_error hfetch hunknown)

end

/-- Settles O6: the step is the CPU step of the decoded word, and by default no tick is tied to it. -/
theorem stepRunsTheDecodedInstruction : Obligations.StepRunsTheDecodedInstruction := by
  intro s i hr hn hpc hd
  have hstep := step_of_decode_ok hr hn hpc hd
  exact ⟨hstep, fun hq => hstep.trans (afterCpu_exec_off i hq)⟩

/-- The report of an unknown word changes PC and diag alone (R55). -/
theorem frame_reportUnknown (s : State) (w : Word) : Frame [] [.diag] s (s.reportUnknown w) := by
  apply frame_of_fields
  case hv => exact fun _ _ => rfl
  case diag => exact fun h => absurd (by decide) h
  all_goals exact fun _ => rfl

/-- Settles O8: by default the step is the report of the word alone. -/
theorem unknownWordIsReportedAndSkipped : Obligations.UnknownWordIsReportedAndSkipped := by
  intro s w hr hn hq hpc hw hrow
  have hstep := step_of_no_row hr hn hpc hw hrow
  have hoff : (s.dropInput.reportUnknown w).quirkTick = s.dropInput.reportUnknown w := quirkTick_off hq
  rw [hoff] at hstep
  exact ⟨_, hstep, rfl, rfl, frame_reportUnknown s.dropInput w⟩

/-- Settles O10: the cycle strobe finds the CPU disabled. -/
theorem noCpuStepWhileWaiting : Obligations.NoCpuStepWhileWaiting := by
  intro s x hr hn
  rw [step_live (live_of_waitKey hr), hn]
  simp only [agentStep, dropInput_run, hr]

/-! ### PC after a plain instruction (R54) -/

/-- An instruction that is no transfer faults or leaves PC at a + 2: four of these can fault, on the range of their bytes. -/
theorem exec_faults_or_advances {i : Instr} (s : State) (hi : isTransfer i = false) :
    ∃ t, exec i s = .next t ∧ ((∃ kind addr, t.run = .faulted kind addr) ∨ t.pc = s.pc + 2#16) := by
  cases i with
  | ret | jp | call | seImm | sneImm | seReg | sneReg | jpV0 | skp | sknp => cases hi
  | drw x y n =>
    cases h : rangeFault s.i.toNat n.toNat with
    | none => exact ⟨_, execDrw_inRange x y h, .inr rfl⟩
    | some a => exact ⟨_, execDrw_outOfRange x y h, .inl ⟨_, _, rfl⟩⟩
  | ldB x =>
    cases h : rangeFault s.i.toNat 3 with
    | none => exact ⟨_, execLdB_inRange x h, .inr rfl⟩
    | some a => exact ⟨_, execLdB_outOfRange x h, .inl ⟨_, _, rfl⟩⟩
  | ldMemV x =>
    cases h : rangeFault s.i.toNat (blockLen x) with
    | none => exact ⟨_, execLdMemV_inRange h, .inr rfl⟩
    | some a => exact ⟨_, execLdMemV_outOfRange h, .inl ⟨_, _, rfl⟩⟩
  | ldVMem x =>
    cases h : rangeFault s.i.toNat (blockLen x) with
    | none =>
      have hpc : (s.advance.loadBlock x).pc = s.advance.pc := by rw [loadBlock_fields]
      exact ⟨_, execLdVMem_inRange h, .inr hpc⟩
    | some a => exact ⟨_, execLdVMem_outOfRange h, .inl ⟨_, _, rfl⟩⟩
  | _ => exact ⟨_, rfl, .inr rfl⟩

/-- Settles O56: a plain instruction that does not fault has advanced PC. -/
theorem plainInstructionsAdvancePcByTwo : Obligations.PlainInstructionsAdvancePcByTwo := by
  intro i s t hi h hnf
  rcases of_exec_next h (exec_faults_or_advances s hi) with ⟨kind, addr, hrun⟩ | hpc
  · exact absurd hrun (hnf kind addr)
  · exact hpc

end Sys2Proof.Machine
end

section
/-! ## Control transfer (spec/41_flow.md R58 to R65): where the jumps, the skips, CALL and RET go, and that they change PC and
the stack alone. -/

namespace Sys2Proof.Machine

/-! ### The frames of a transfer (R53) -/

/-- A transfer that sets PC and the stack alone has the frame of the stack. -/
theorem frame_of_pc_stack {s t : State} (h : t = { s with pc := t.pc, stack := t.stack }) : Frame [] [.stack] s t := by
  rw [h]
  apply frame_of_fields
  case hv => exact fun _ _ => rfl
  case stack => exact fun hs => absurd (by decide) hs
  all_goals exact fun _ => rfl

/-- A transfer that sets PC alone leaves every register and every piece of state. -/
theorem frame_of_pc {s t : State} (h : t = { s with pc := t.pc }) : Frame [] [] s t := by
  rw [h]
  apply frame_of_fields
  case hv => exact fun _ _ => rfl
  all_goals exact fun _ => rfl

/-! ### The jumps (R59, R65) -/

/-- A 12-bit target is zero-extended (R44). -/
@[simp] theorem addr16_toNat (nnn : Addr12) : (addr16 nnn).toNat = nnn.toNat := by
  have := nnn.isLt
  simp only [addr16, BitVec.toNat_ofNat]
  omega

/-- BNNN's target is the exact sum modulo 4096 (R65). -/
@[simp] theorem jumpOffset_toNat (v0 : Byte) (nnn : Addr12) :
    (jumpOffset v0 nnn).toNat = (v0.toNat + nnn.toNat) % 4096 := by
  simp only [jumpOffset, BitVec.toNat_ofNat]
  omega

/-- Settles O16: the target is zero-extended, and a jump sets PC alone. -/
theorem jumpGoesToTarget : Obligations.JumpGoesToTarget :=
  fun nnn _ => ⟨_, rfl, addr16_toNat nnn, frame_of_pc rfl⟩

/-- Settles O17: the target is reduced to 12 bits, and a jump sets PC alone. -/
theorem jumpWithOffsetWrapsAtTwelveBits : Obligations.JumpWithOffsetWrapsAtTwelveBits :=
  fun nnn s => ⟨_, rfl, jumpOffset_toNat (s.readV 0#4) nnn, frame_of_pc rfl⟩

/-! ### CALL and RET (R58, R60) -/

/-- Settles O18: a push below STACK_DEPTH appends, and at STACK_DEPTH CALL is the fault entry alone. -/
theorem callPushesReturnAddressOrOverflows : Obligations.CallPushesReturnAddressOrOverflows := by
  intro nnn s
  constructor
  · intro hroom
    exact ⟨_, execCall_room nnn hroom, rfl, addr16_toNat nnn, frame_of_pc_stack rfl⟩
  · intro hfull
    exact ⟨_, execCall_full nnn hfull, rfl, rfl, rfl, frame_enterFault s _ _⟩

/-- Settles O19: a pop takes the newest entry off, and on an empty stack RET is the fault entry alone. -/
theorem returnPopsNewestEntryOrUnderflows : Obligations.ReturnPopsNewestEntryOrUnderflows := by
  intro s
  constructor
  · intro ws w happend
    exact ⟨_, execRet_append happend, rfl, rfl, frame_of_pc_stack rfl⟩
  · intro hnil
    exact ⟨_, execRet_nil hnil, rfl, rfl, rfl, frame_enterFault s _ _⟩

/-- Settles O20: the entry that RET pops is the one that CALL appended, so PC alone differs in the end. -/
theorem callThenReturnComesBack : Obligations.CallThenReturnComesBack := by
  intro nnn s hroom
  exact ⟨_, _, execCall_room nnn hroom, execRet_append rfl, rfl, rfl, frame_of_pc rfl⟩

/-! ### The skips (R61 to R64) -/

/-- A skip leaves PC at a + 4 where it is taken and at a + 2 where it is not (R54). -/
theorem pc_advance_skipIf (s : State) (taken : Bool) :
    (s.advance.skipIf taken).pc = if taken then s.pc + 4#16 else s.pc + 2#16 := by
  cases taken with
  | false => rfl
  | true => exact BitVec.add_assoc s.pc 2#16 2#16

/-- An instruction that skips where `c` holds. -/
theorem exec_skips_if {i : Instr} {s : State} (c : Prop) [Decidable c]
    (h : exec i s = .next (s.advance.skipIf (decide c))) :
    ∃ t, exec i s = .next t ∧ t.pc = (if c then s.pc + 4#16 else s.pc + 2#16) ∧ Frame [] [] s t := by
  refine ⟨_, h, ?_, frame_of_pc rfl⟩
  rw [pc_advance_skipIf]
  simp only [decide_eq_true_eq]

/-- An instruction that skips where `c` does not hold. -/
theorem exec_skips_unless {i : Instr} {s : State} (c : Prop) [Decidable c]
    (h : exec i s = .next (s.advance.skipIf (decide ¬c))) :
    ∃ t, exec i s = .next t ∧ t.pc = (if c then s.pc + 2#16 else s.pc + 4#16) ∧ Frame [] [] s t := by
  rw [← ite_not]
  exact exec_skips_if (¬c) h

/-- Settles O21: SE skips where its operands are equal, SNE where they are not. -/
theorem compareSkips : Obligations.CompareSkips := fun x y nn s =>
  ⟨exec_skips_if (s.readV x = nn) rfl, exec_skips_unless (s.readV x = nn) rfl,
    exec_skips_if (s.readV x = s.readV y) rfl, exec_skips_unless (s.readV x = s.readV y) rfl⟩

end Sys2Proof.Machine
end

section
/-! ## The ALU (spec/42_alu.md R67 to R78): what is written to the destination and to VF, and that nothing else but PC moves.
The arithmetic stands apart, as facts about bytes; the instructions come in two shapes, a plain write and a write with VF
last. -/

namespace Sys2Proof.Machine

/-! ### Results and flags as facts about bytes (R66) -/

@[simp] theorem addBytes_toNat (a b : Byte) : (addBytes a b).toNat = (a.toNat + b.toNat) % 256 := by
  simp only [addBytes, BitVec.toNat_ofNat]
  omega

/-- The model adds 256 before it subtracts; the result is the exact difference modulo 256. -/
theorem subBytes_toNat (a b : Byte) : ((subBytes a b).toNat : Int) = (a.toNat - b.toNat : Int) % 256 := by
  have hb := b.isLt
  simp only [subBytes, BitVec.toNat_ofNat]
  omega

theorem shiftRight_eq (a : Byte) : shiftRight a = a >>> 1 := by
  apply BitVec.eq_of_toNat_eq
  have ha := a.isLt
  simp only [shiftRight, BitVec.toNat_ofNat, BitVec.toNat_ushiftRight, Nat.shiftRight_eq_div_pow]
  omega

theorem shiftLeft_eq (a : Byte) : shiftLeft a = a <<< 1 := by
  apply BitVec.eq_of_toNat_eq
  simp only [shiftLeft, BitVec.toNat_ofNat, BitVec.toNat_shiftLeft, Nat.shiftLeft_eq]
  omega

/-- Every bit moves down one place, and bit 7 becomes 0 (R75). -/
theorem getLsbD_shiftRight (a : Byte) (k : Nat) : (shiftRight a).getLsbD k = a.getLsbD (k + 1) := by
  rw [shiftRight_eq, BitVec.getLsbD_ushiftRight, Nat.add_comm]

/-- Every bit moves up one place, and bit 0 becomes 0 (R77). -/
theorem getLsbD_shiftLeft (a : Byte) {k : Nat} (hk : k < 8) :
    (shiftLeft a).getLsbD k = (decide (0 < k) && a.getLsbD (k - 1)) := by
  have hzero : (!decide (k < 1)) = decide (0 < k) := by
    rw [← decide_not, decide_eq_decide]
    omega
  rw [shiftLeft_eq, BitVec.getLsbD_shiftLeft, decide_eq_true hk, Bool.true_and, hzero]

theorem shiftOutRight_eq (a : Byte) : shiftOutRight a = a.getLsbD 0 := (Nat.testBit_zero a.toNat).symm

theorem shiftOutLeft_eq (a : Byte) : shiftOutLeft a = a.getLsbD 7 := by
  rw [shiftOutLeft, BitVec.getLsbD, Nat.testBit_eq_decide_div_mod_eq]

/-! ### The two shapes of an ALU write (R52, R53) -/

/-- A write of registers moves PC, and at most counts a draw. -/
theorem frame_of_registers {s t : State} {regs : List Nibble} {parts : List Part}
    (h : t = { s with v := t.v, pc := t.pc, draws := t.draws }) (hv : ∀ r, r ∉ regs → t.readV r = s.readV r)
    (hd : .draws ∉ parts → t.draws = s.draws) : Frame regs parts s t := by
  rw [h] at hv hd ⊢
  apply frame_of_fields
  case hv => exact hv
  case draws => exact hd
  all_goals exact fun _ => rfl

/-- A plain write leaves every other register, VF too unless it is the destination. -/
theorem frame_writeV (s : State) (x : Nibble) (b : Byte) : Frame [x] [] s (s.advance.writeV x b) :=
  frame_of_registers rfl (fun _ hr => readV_writeV_other s.advance b (List.ne_of_not_mem_cons hr)) fun _ => rfl

/-- A write with a flag leaves every register but its destination and VF. -/
theorem frame_writeResult (s : State) (x : Nibble) (b : Byte) (flag : Bool) :
    Frame [x, vf] [] s (s.advance.writeResult x b flag) := by
  refine frame_of_registers rfl (fun r hr => ?_) fun _ => rfl
  obtain ⟨hx, hvf⟩ : r ≠ x ∧ r ≠ vf := by simpa using hr
  rw [readV_writeResult, if_neg hvf, if_neg hx, readV_advance]

/-- The destination holds the result where the flag does not overwrite it. -/
theorem readV_writeResult_dest (s : State) {x : Nibble} (b : Byte) (flag : Bool) (hx : x ≠ vf) :
    (s.writeResult x b flag).readV x = b := by
  rw [readV_writeResult, if_neg hx, if_pos rfl]

/-- VF holds the flag, whatever the destination. -/
theorem readV_writeResult_vf (s : State) (x : Nibble) (b : Byte) (flag : Bool) :
    (s.writeResult x b flag).readV vf = if flag then 1#8 else 0#8 := by
  rw [readV_writeResult, if_pos rfl]

/-- VF as a number, where the flag is a comparison. -/
theorem readV_writeResult_vf_toNat (s : State) (x : Nibble) (b : Byte) (c : Prop) [Decidable c] :
    ((s.writeResult x b (decide c)).readV vf).toNat = if c then 1 else 0 := by
  rw [readV_writeResult_vf]
  by_cases h : c
  · rw [if_pos h, if_pos (decide_eq_true h)]
    rfl
  · rw [if_neg h, if_neg (by simpa using h)]
    rfl

/-! ### The plain writes (R67 to R72, R78) -/

/-- Settles O23: each is a plain write of its result. -/
theorem loadsAndAddImmediate : Obligations.LoadsAndAddImmediate := by
  intro x y nn s
  refine ⟨⟨_, rfl, readV_writeV_self _ x nn, rfl, frame_writeV s x _⟩, ⟨_, rfl, ?sum, rfl, frame_writeV s x _⟩,
    ⟨_, rfl, readV_writeV_self _ x _, rfl, frame_writeV s x _⟩⟩
  case sum => rw [readV_writeV_self, addBytes_toNat]

/-- Settles O24: each is a plain write of the bitwise result. -/
theorem logicBitByBit : Obligations.LogicBitByBit := by
  intro x y s
  refine ⟨⟨_, rfl, fun k => ?or, rfl, frame_writeV s x _⟩, ⟨_, rfl, fun k => ?and, rfl, frame_writeV s x _⟩,
    ⟨_, rfl, fun k => ?xor, rfl, frame_writeV s x _⟩⟩
  case or => rw [readV_writeV_self, BitVec.getLsbD_or]
  case and => rw [readV_writeV_self, BitVec.getLsbD_and]
  case xor => rw [readV_writeV_self, BitVec.getLsbD_xor, Bool.bne_eq_xor]

/-- Settles O28: a plain write of the draw under the mask, and the count of draws is the one more piece that moves. -/
theorem randomDrawIsMasked : Obligations.RandomDrawIsMasked := by
  intro x nn s
  refine ⟨_, rfl, readV_writeV_self _ x _, fun k hk => ?masked, rfl, rfl,
    frame_of_registers rfl (fun r hr => ?other) ?counted⟩
  case masked => rw [readV_writeV_self, BitVec.getLsbD_and, hk, Bool.and_false]
  case other => exact readV_writeV_other s.advance.countDraw _ (List.ne_of_not_mem_cons hr)
  case counted => exact fun h => absurd (by decide) h

/-! ### The writes with VF last (R73 to R77) -/

/-- Settles O25: the flag is written over the sum where X = 0xF. -/
theorem addRegistersWithCarry : Obligations.AddRegistersWithCarry := by
  intro x y s
  refine ⟨_, rfl, fun hx => ?sum, readV_writeResult_vf_toNat _ x _ _, rfl, frame_writeResult s x _ _⟩
  case sum => rw [readV_writeResult_dest _ _ _ hx, addBytes_toNat]

/-- Settles O26: SUB and SUBN are one subtraction with its operands exchanged. -/
theorem subtractionsWithStrictFlag : Obligations.SubtractionsWithStrictFlag := by
  intro x y s
  refine ⟨⟨_, rfl, fun hx => ?sub, readV_writeResult_vf_toNat _ x _ _, rfl, frame_writeResult s x _ _⟩,
    ⟨_, rfl, fun hx => ?subn, readV_writeResult_vf_toNat _ x _ _, rfl, frame_writeResult s x _ _⟩⟩
  case sub | subn => rw [readV_writeResult_dest _ _ _ hx, subBytes_toNat]

/-- Settles O27: the flag is the bit that the shift of the old V[x] drops. -/
theorem shiftsByOne : Obligations.ShiftsByOne := by
  intro x y s
  refine ⟨⟨_, rfl, fun hx k => ?right, ?bit0, rfl, frame_writeResult s x _ _⟩,
    ⟨_, rfl, fun hx k hk => ?left, ?bit7, rfl, frame_writeResult s x _ _⟩⟩
  case right => rw [readV_writeResult_dest _ _ _ hx, getLsbD_shiftRight]
  case bit0 => rw [readV_writeResult_vf, shiftOutRight_eq]
  case left => rw [readV_writeResult_dest _ _ _ hx, getLsbD_shiftLeft _ hk]
  case bit7 => rw [readV_writeResult_vf, shiftOutLeft_eq]

end Sys2Proof.Machine
end

section
/-! ## Index register and memory (spec/43_index_memory.md R79 to R84): what ANNN, FX29 and FX1E make of I, the bytes that FX33 and
FX55 leave to read, the registers that FX65 loads, and the fault that the three accesses share. -/

namespace Sys2Proof.Machine

/-! ### The frames (R53) -/

/-- A step that sets I and PC, and no register outside `regs`, has the frame of the index. -/
theorem frame_of_index {s t : State} {regs : List Nibble} (h : t = { s with v := t.v, i := t.i, pc := t.pc })
    (hv : ∀ r, r ∉ regs → t.readV r = s.readV r) : Frame regs [.index] s t := by
  rw [h] at hv ⊢
  apply frame_of_fields
  case hv => exact hv
  case index => exact fun hi => absurd (by decide) hi
  all_goals exact fun _ => rfl

/-- A step that sets memory and PC alone has the frame of memory. -/
theorem frame_of_memory {s t : State} (h : t = { s with mem := t.mem, pc := t.pc }) : Frame [] [.memory] s t := by
  rw [h]
  apply frame_of_fields
  case hv => exact fun _ _ => rfl
  case memory => exact fun hm => absurd (by decide) hm
  all_goals exact fun _ => rfl

/-- A step that sets registers and PC alone keeps every piece of state beside them. -/
theorem kept_of_registers {s t : State} (h : t = { s with v := t.v, pc := t.pc }) (p : Part) : Part.Kept s t p := by
  rw [h]
  cases p with
  | screen => exact fun _ _ => rfl
  | memory | pressed => exact fun _ => rfl
  | _ => exact rfl

/-! ### The block load writes registers alone (R84) -/

@[simp] theorem loadBlock_i (s : State) (x : Nibble) : (s.loadBlock x).i = s.i := by rw [loadBlock_fields]
@[simp] theorem loadBlock_pc (s : State) (x : Nibble) : (s.loadBlock x).pc = s.pc := by rw [loadBlock_fields]

/-- FX65 keeps every piece of state beside the registers and PC. -/
theorem kept_loadBlock (s : State) (x : Nibble) (p : Part) : Part.Kept s (s.advance.loadBlock x) p := by
  apply kept_of_registers
  rw [loadBlock_fields]
  rfl

/-! ### The index register (R79 to R81) -/

/-- The low nibble is the byte modulo 16 (R81, R91). -/
@[simp] theorem lowNibble_toNat (b : Byte) : (lowNibble b).toNat = b.toNat % 16 := by
  rw [lowNibble, BitVec.toNat_ofNat]
  exact Nat.mod_mod _ _

/-- The glyph's address does not wrap, and the high nibble of the digit's byte is ignored (R81). -/
theorem glyphAddr_lowNibble_toNat (b : Byte) : (glyphAddr (lowNibble b)).toNat = 0x050 + b.toNat % 16 * 5 := by
  rw [glyphAddr, lowNibble_toNat, BitVec.toNat_ofNat]
  exact Nat.mod_eq_of_lt (by unfold Config.fontBase; omega)

/-- VF as a number after a flag that is a comparison (R16). -/
theorem readV_setVf_vf_toNat (s : State) (c : Prop) [Decidable c] :
    ((s.setVf (decide c)).readV vf).toNat = if c then 1 else 0 := by
  rw [readV_setVf, if_pos rfl, apply_ite BitVec.toNat]
  simp only [decide_eq_true_eq, BitVec.toNat_ofNat, Nat.reducePow, Nat.reduceMod]

/-- Settles O29: both write I alone, ANNN its zero-extended operand and FX29 the address of a glyph. -/
theorem indexLoads : Obligations.IndexLoads := fun x nnn s =>
  ⟨⟨_, rfl, addr16_toNat nnn, rfl, frame_of_index rfl fun _ _ => rfl⟩,
    ⟨_, rfl, glyphAddr_lowNibble_toNat (s.readV x), rfl, frame_of_index rfl fun _ _ => rfl⟩⟩

/-- Settles O30: I and the flag are both computed from the registers as they were, and VF is the last write. -/
theorem addToIndexSetsVfOnOverflow : Obligations.AddToIndexSetsVfOnOverflow := by
  intro x s
  refine ⟨_, rfl, ?sum, readV_setVf_vf_toNat _ _, rfl, frame_of_index rfl fun r hr => ?other⟩
  case sum =>
    rw [setVf_i, writeI_i, BitVec.toNat_ofNat]
    exact Nat.mod_mod _ _
  case other =>
    rw [readV_setVf, if_neg (List.ne_of_not_mem_cons hr)]
    exact readV_congr rfl r

/-! ### The fault of an access that leaves memory (R30, R98) -/

/-- An access out of range is the fault entry alone, with the lowest address of the range that does not exist. -/
theorem exec_faults_outOfRange {i : Instr} {s : State}
    (h : exec i s = .next (s.enterFault .memoryFault (some (max s.i.toNat 0x1000)))) :
    ∃ t, exec i s = .next t ∧ t.run = .faulted .memoryFault s.pc ∧
      t.diag = s.diag ++ [.fault .memoryFault s.pc (some (max s.i.toNat 0x1000))] ∧ t.pc = s.pc ∧
      Frame [] [.run, .diag] s t :=
  ⟨_, h, rfl, rfl, rfl, frame_enterFault s _ _⟩

/-- The block V[0] to V[x] leaves memory where I + x does. -/
theorem rangeFault_block {s : State} {x : Nibble} (h : 0x1000 ≤ s.i.toNat + x.toNat) :
    rangeFault s.i.toNat (blockLen x) = some (max s.i.toNat 0x1000) :=
  rangeFault_some (Nat.succ_pos x.toNat) (Nat.lt_succ_of_le h)

/-! ### The bytes that a store leaves to read (R82, R83) -/

section
variable (s : State) (x : Nibble)

theorem bcdByte_hundreds : (bcdByte s x s.i.toNat).toNat = (s.readV x).toNat / 100 := by
  rw [bcdByte, if_pos rfl, BitVec.toNat_ofNat]
  omega

theorem bcdByte_tens : (bcdByte s x (s.i.toNat + 1)).toNat = (s.readV x).toNat / 10 % 10 := by
  rw [bcdByte, if_neg (by omega), if_pos rfl, BitVec.toNat_ofNat]
  omega

theorem bcdByte_ones : (bcdByte s x (s.i.toNat + 2)).toNat = (s.readV x).toNat % 10 := by
  rw [bcdByte, if_neg (by omega), if_neg (by omega), if_pos rfl, BitVec.toNat_ofNat]
  omega

theorem bcdByte_outside {a : Nat} (h : a < s.i.toNat ∨ s.i.toNat + 3 ≤ a) : bcdByte s x a = s.readMem a := by
  rw [bcdByte, if_neg (by omega), if_neg (by omega), if_neg (by omega)]

theorem blockByte_inside {x r : Nibble} (h : r.toNat ≤ x.toNat) : blockByte s x (s.i.toNat + r.toNat) = s.readV r := by
  rw [blockByte, if_pos (by omega), Nat.add_sub_cancel_left, BitVec.ofNat_toNat, BitVec.setWidth_eq]

theorem blockByte_outside {a : Nat} (h : a < s.i.toNat ∨ s.i.toNat + x.toNat + 1 ≤ a) :
    blockByte s x a = s.readMem a := by
  rw [blockByte, if_neg (by omega)]

end

/-! ### The block instructions (R82 to R84) -/

/-- Settles O31: in range every byte reads as `bcdByte`, and the three digits weigh V[x]. -/
theorem bcdStoresThreeDigitsOrFaults : Obligations.BcdStoresThreeDigitsOrFaults := by
  intro x s hm
  constructor
  · intro hin
    refine ⟨_, execLdB_inRange x (rangeFault_none hin), ?_⟩
    simp only [readMem_storeBytes_bcdDigits x hm, bcdByte_hundreds, bcdByte_tens, bcdByte_ones]
    refine ⟨trivial, trivial, trivial, ?weights, fun a ha => bcdByte_outside s x ha, rfl, frame_of_memory rfl⟩
    case weights => omega
  · intro hout
    exact exec_faults_outOfRange (execLdB_outOfRange x (rangeFault_some (by decide) (Nat.lt_succ_of_le hout)))

/-- Settles O32: in range every byte reads as `blockByte`. -/
theorem blockStoreOrFault : Obligations.BlockStoreOrFault := by
  intro x s hm
  constructor
  · intro hin
    refine ⟨_, execLdMemV_inRange (rangeFault_none hin), ?_⟩
    simp only [readMem_storeBytes_readBlock x hm]
    exact ⟨fun r hr => blockByte_inside s hr, fun a ha => blockByte_outside s x ha, rfl, frame_of_memory rfl⟩
  · intro hout
    exact exec_faults_outOfRange (execLdMemV_outOfRange (rangeFault_block hout))

/-- Settles O33: each register is loaded from memory as it was, since the load writes registers alone. -/
theorem blockLoadOrFault : Obligations.BlockLoadOrFault := by
  intro x s
  constructor
  · intro hin
    exact ⟨_, execLdVMem_inRange (rangeFault_none hin), readV_loadBlock s.advance x, loadBlock_pc s.advance x,
      kept_loadBlock s x⟩
  · intro hout
    exact exec_faults_outOfRange (execLdVMem_outOfRange (rangeFault_block hout))

/-- Settles O34: I is the same at the load as at the store, so V[r] comes back from the byte it was stored to. -/
theorem blockStoreThenLoadRestores : Obligations.BlockStoreThenLoadRestores := by
  intro x s v hm hin
  have hrange : rangeFault s.i.toNat (blockLen x) = none := rangeFault_none hin
  refine ⟨_, _, execLdMemV_inRange hrange, execLdVMem_inRange hrange, ?index, fun r hr => ?restored⟩
  case index => exact loadBlock_i _ x
  case restored =>
    rw [readV_loadBlock, if_pos hr]
    exact (readMem_storeBytes_readBlock x hm _).trans (blockByte_inside s hr)

end Sys2Proof.Machine
end

section
/-! ## The display (spec/44_display.md R85 to R90): the pixels that a draw lights, the state after it, and the frames of CLS and
DXYN. -/

namespace Sys2Proof.Machine

/-! ### The pixels of a draw and the state after it (R86) -/

/-- The pixels of the screen that DXYN turns over from `s`. -/
def State.drawnPixels (s : State) (x y n : Nibble) : List (Nat × Nat) :=
  litPixels (s.readSprite n) ((s.readV x).toNat % Config.displayW) ((s.readV y).toNat % Config.displayH)

/-- The state after a DXYN whose rows lie in memory. -/
def State.drawn (s : State) (x y n : Nibble) : State :=
  s.advance.compose (s.readSprite n) (s.readV x) (s.readV y)

section
variable (s : State) (x y n : Nibble)

/-- DXYN turns over the visible 1 bits of its sprite. -/
theorem mem_drawnPixels (cx cy : Nat) :
    (cx, cy) ∈ s.drawnPixels x y n ↔ cx < 64 ∧ cy < 32 ∧ spriteBit s x y n cx cy := by
  simp only [State.drawnPixels, mem_litPixels, readSprite_length, spriteBit, Config.displayW, Config.displayH]
  constructor
  · rintro ⟨hx, hx8, hx64, hy, hyn, hy32, hbit⟩
    rw [readSprite_getD s n _ (by omega)] at hbit
    exact ⟨hx64, hy32, hx, hx8, hy, hyn, hbit⟩
  · rintro ⟨hx64, hy32, hx, hx8, hy, hyn, hbit⟩
    refine ⟨hx, hx8, hx64, hy, hyn, hy32, ?_⟩
    rwa [readSprite_getD s n _ (by omega)]

/-- A draw of no rows turns no pixel over (R87). -/
@[simp] theorem drawnPixels_zero : s.drawnPixels x y 0#4 = [] := rfl

theorem pixel_drawn (cx cy : Nat) :
    (s.drawn x y n).pixel cx cy = (s.pixel cx cy != decide ((cx, cy) ∈ s.drawnPixels x y n)) :=
  pixel_drawSprite _ _ _ _ _ _

theorem pixel_drawn_of_mem {cx cy : Nat} (h : (cx, cy) ∈ s.drawnPixels x y n) :
    (s.drawn x y n).pixel cx cy = !s.pixel cx cy := by
  rw [pixel_drawn, decide_eq_true h, Bool.bne_true]

theorem pixel_drawn_of_not_mem {cx cy : Nat} (h : (cx, cy) ∉ s.drawnPixels x y n) :
    (s.drawn x y n).pixel cx cy = s.pixel cx cy := by
  rw [pixel_drawn, decide_eq_false h, Bool.bne_false]

/-- VF is 1 exactly when a pixel that was turned over had been on. -/
theorem readV_vf_drawn_eq_one :
    (s.drawn x y n).readV vf = 1#8 ↔ ∃ cx cy, (cx, cy) ∈ s.drawnPixels x y n ∧ s.pixel cx cy = true := by
  refine Iff.trans ?_ (collisionFlag_iff s.fb _ _ _)
  rw [State.drawn, State.compose, readV_setVf, if_pos rfl]
  exact Ne.ite_eq_left_iff (by decide : (1#8 : Byte) ≠ 0#8)

theorem readV_vf_drawn : (s.drawn x y n).readV vf = 0#8 ∨ (s.drawn x y n).readV vf = 1#8 := readV_vf_setVf _ _

theorem readV_drawn {r : Nibble} (hr : r ≠ vf) : (s.drawn x y n).readV r = s.readV r := by
  rw [State.drawn, State.compose, readV_setVf, if_neg hr]
  rfl

end

/-- A draw whose origin does not come from VF leaves its own operands, so a second one turns the same pixels over. -/
theorem drawnPixels_drawn (s : State) {x y : Nibble} (n : Nibble) (hx : x ≠ vf) (hy : y ≠ vf) :
    (s.drawn x y n).drawnPixels x y n = s.drawnPixels x y n := by
  unfold State.drawnPixels
  rw [readV_drawn s x y n hx, readV_drawn s x y n hy]
  rfl

/-! ### DXYN by its range check (R86, R87) -/

/-- A draw of no rows, or of rows that lie in memory, completes. -/
theorem exec_drw_inRange {s : State} {n : Nibble} (x y : Nibble) (h : n = 0#4 ∨ s.i.toNat + n.toNat ≤ 0x1000) :
    exec (.drw x y n) s = .next (s.drawn x y n) := by
  apply execDrw_inRange
  rcases h with rfl | hin
  · exact rangeFault_empty _
  · exact rangeFault_none hin

/-- Everything a draw can do: it completes, or it raises MemoryFault. -/
theorem exec_drw_cases {x y n : Nibble} {s t : State} (h : exec (.drw x y n) s = .next t) :
    t = s.drawn x y n ∨ ∃ info, t = s.enterFault .memoryFault info := by
  apply of_exec_next h
  cases hr : rangeFault s.i.toNat n.toNat with
  | none => exact ⟨_, execDrw_inRange x y hr, .inl rfl⟩
  | some a => exact ⟨_, execDrw_outOfRange x y hr, .inr ⟨_, rfl⟩⟩

/-! ### The frames (R53) -/

/-- A write of the screen, at most with registers and PC. -/
theorem frame_of_screen {s t : State} {regs : List Nibble} {parts : List Part}
    (h : t = { s with v := t.v, pc := t.pc, fb := t.fb }) (hv : ∀ r, r ∉ regs → t.readV r = s.readV r)
    (hfb : .screen ∉ parts → t.fb = s.fb) : Frame regs parts s t := by
  rw [h] at hv hfb ⊢
  apply frame_of_fields
  case hv => exact hv
  case screen => exact hfb
  all_goals exact fun _ => rfl

/-- A draw leaves every register but VF, and every piece of state but the screen. -/
theorem frame_drawn (s : State) (x y n : Nibble) {parts : List Part}
    (hfb : .screen ∉ parts → (s.drawn x y n).fb = s.fb) : Frame [vf] parts s (s.drawn x y n) :=
  frame_of_screen rfl (fun _ hr => readV_drawn s x y n (List.ne_of_not_mem_cons hr)) hfb

theorem frame_drawn_screen (s : State) (x y n : Nibble) : Frame [vf] [.screen] s (s.drawn x y n) :=
  frame_drawn s x y n fun h => absurd (List.mem_singleton_self _) h

/-! ### The statements (R85 to R90) -/

/-- Settles O36: the screen becomes the blank one, and only PC moves beside it. -/
theorem clsTurnsEveryPixelOff : Obligations.ClsTurnsEveryPixelOff := fun _ =>
  ⟨_, rfl, pixel_blankScreen, rfl,
    frame_of_screen rfl (fun _ _ => rfl) fun h => absurd (List.mem_singleton_self _) h⟩

/-- Settles O37: the pixels turned over are the visible 1 bits of the sprite, and the fault is the fault entry alone. -/
theorem drawTurnsLitPixelsOverOrFaults : Obligations.DrawTurnsLitPixelsOverOrFaults := by
  intro x y n s
  constructor
  · intro hin
    refine ⟨_, exec_drw_inRange x y hin, fun cx cy hx hy => ⟨fun hbit => ?lit, fun hbit => ?unlit⟩,
      readV_vf_drawn s x y n, ?collision, rfl, frame_drawn_screen s x y n⟩
    case lit => exact pixel_drawn_of_mem s x y n ((mem_drawnPixels s x y n cx cy).mpr ⟨hx, hy, hbit⟩)
    case unlit =>
      refine pixel_drawn_of_not_mem s x y n fun hmem => hbit ?_
      exact ((mem_drawnPixels s x y n cx cy).mp hmem).2.2
    case collision => simpa only [mem_drawnPixels, and_assoc] using readV_vf_drawn_eq_one s x y n
  · rintro ⟨hn, hout⟩
    exact exec_faults_outOfRange (execDrw_outOfRange x y (rangeFault_some hn (by unfold Config.memSize; omega)))

/-- Settles O38: the empty range passes the check whatever I is, and no pixel is turned over, so none can collide. -/
theorem drawOfNoRowsClearsVf : Obligations.DrawOfNoRowsClearsVf := by
  intro x y s
  have hvf : (s.drawn x y 0#4).readV vf ≠ 1#8 := by
    rw [Ne, readV_vf_drawn_eq_one, drawnPixels_zero]
    rintro ⟨_, _, hmem, _⟩
    exact List.not_mem_nil hmem
  exact ⟨_, exec_drw_inRange x y (.inl rfl), (readV_vf_drawn s x y 0#4).resolve_right hvf, rfl,
    frame_drawn s x y 0#4 fun _ => rfl⟩

/-- Settles O39: a pixel that a draw turns over lies in the clipped rectangle; a draw that faults turns none over. -/
theorem drawStaysInsideItsRectangle : Obligations.DrawStaysInsideItsRectangle := by
  intro x y n s t h
  rcases exec_drw_cases h with rfl | ⟨info, rfl⟩
  · refine ⟨fun cx cy hout => pixel_drawn_of_not_mem s x y n fun hmem => hout ?_,
      .inl ⟨rfl, frame_drawn_screen s x y n⟩⟩
    obtain ⟨hx64, hy32, hx, hx8, hy, hyn, -⟩ := (mem_drawnPixels s x y n cx cy).mp hmem
    exact ⟨hx, lt_min hx8 hx64, hy, lt_min hyn hy32⟩
  · exact ⟨fun _ _ _ => rfl, .inr ⟨rfl, rfl, frame_enterFault s _ _⟩⟩

/-- Settles O40: both draws turn the same pixels over, so a pixel of the sprite is on before the second draw exactly when it was
off before the first. -/
theorem drawTwiceRestoresTheScreen : Obligations.DrawTwiceRestoresTheScreen := by
  intro x y n s hin hx hy
  have hsame : (s.drawn x y n).drawnPixels x y n = s.drawnPixels x y n := drawnPixels_drawn s n hx hy
  refine ⟨_, _, exec_drw_inRange x y hin, exec_drw_inRange (s := s.drawn x y n) x y hin, fun cx cy => ?restored,
    ?first, ?second⟩
  case restored => rw [pixel_drawn, pixel_drawn, hsame, Bool.bne_assoc, bne_self_eq_false, Bool.bne_false]
  case first => simpa only [mem_drawnPixels, and_assoc] using readV_vf_drawn_eq_one s x y n
  case second =>
    have hoff : ∀ {cx cy}, (cx, cy) ∈ s.drawnPixels x y n →
        ((s.drawn x y n).pixel cx cy = true ↔ s.pixel cx cy = false) := fun hmem => by
      rw [pixel_drawn_of_mem s x y n hmem, Bool.not_eq_true']
    have hflag : ((s.drawn x y n).drawn x y n).readV vf = 1#8 ↔
        ∃ cx cy, (cx, cy) ∈ s.drawnPixels x y n ∧ s.pixel cx cy = false := by
      rw [readV_vf_drawn_eq_one, hsame]
      exact exists₂_congr fun _ _ => and_congr_right hoff
    simpa only [mem_drawnPixels, and_assoc] using hflag

/-- Settles O41: the reset memory lists no byte, so each address of the font reads its reset content. -/
theorem fontAtReset : Obligations.FontAtReset := by
  unfold Obligations.FontAtReset
  decide

end Sys2Proof.Machine
end

section
/-! ## The keypad and the timers (spec/45_keypad_timer.md R91 to R96): the key skips, the timer transfers and the wait for a
key, each with its frame. -/

namespace Sys2Proof.Machine

/-! ### The key skips (R91, R92) -/

/-- Settles O22: k is the key that both skips test, and SKNP skips where SKP does not. -/
theorem keySkips : Obligations.KeySkips := by
  intro x k s hk
  obtain rfl : k = lowNibble (s.readV x) := BitVec.eq_of_toNat_eq (hk.trans (lowNibble_toNat _).symm)
  refine ⟨exec_skips_if _ ?skp, exec_skips_unless _ ?sknp⟩
  case skp =>
    rw [Bool.decide_eq_true]
    rfl
  case sknp =>
    rw [decide_not, Bool.decide_eq_true]
    rfl

/-! ### The frame of a write of the timers or of run (R53) -/

/-- A step that moves PC, and beside it at most the timers and run. -/
theorem frame_of_timers_run {s t : State} {parts : List Part}
    (h : t = { s with pc := t.pc, dt := t.dt, st := t.st, run := t.run }) (delay : .delayTimer ∉ parts → t.dt = s.dt)
    (sound : .soundTimer ∉ parts → t.st = s.st) (run : .run ∉ parts → t.run = s.run) : Frame [] parts s t := by
  rw [h] at delay sound run ⊢
  apply frame_of_fields
  case hv => exact fun _ _ => rfl
  case delay => exact delay
  case sound => exact sound
  case run => exact run
  all_goals exact fun _ => rfl

/-! ### The timer transfers and the wait (R93 to R96) -/

/-- Settles O42: FX07 is a plain write of DT to V[x]; FX15 and FX18 each write V[x] to their own timer. -/
theorem timerTransfers : Obligations.TimerTransfers := by
  intro x s
  refine ⟨⟨_, rfl, readV_writeV_self _ x _, rfl, frame_writeV s x _⟩, ⟨_, rfl, rfl, rfl, ?toDelay⟩,
    ⟨_, rfl, rfl, rfl, rfl, ?toSound⟩⟩
  case toDelay =>
    exact frame_of_timers_run rfl (fun h => absurd (List.mem_singleton_self _) h) (fun _ => rfl) fun _ => rfl
  case toSound =>
    exact frame_of_timers_run rfl (fun _ => rfl) (fun h => absurd (List.mem_singleton_self _) h) fun _ => rfl

/-- Settles O43: the execute part of FX0A writes run alone; V[x] is written at the key. -/
theorem waitForKeyBlocks : Obligations.WaitForKeyBlocks := fun _ _ =>
  ⟨_, rfl, rfl, rfl,
    frame_of_timers_run rfl (fun _ => rfl) (fun _ => rfl) fun h => absurd (List.mem_singleton_self _) h⟩

end Sys2Proof.Machine
end

section
/-! ## The agents beside the CPU (spec/60_exceptions.md R104 to R112): the input a step takes, the step of each
agent, and that a live block always has one. -/

namespace Sys2Proof.Machine

/-! ### No instruction touches the ports (R22, R26, R106) -/

/-- Settles O58: neither the entry into a fault nor a completed instruction writes any of them. -/
theorem instructionsLeaveToneAndKeypad : Obligations.InstructionsLeaveToneAndKeypad := by
  intro i s t h
  rcases exec_cases h with ⟨kind, info, rfl⟩ | hc
  · exact ⟨rfl, fun _ => rfl, rfl, rfl, rfl, rfl⟩
  · rw [hc.rest]
    exact ⟨rfl, fun _ => rfl, rfl, rfl, rfl, rfl⟩

/-! ### Taking an input (R104, R110) -/

/-- Settles O7: the inputs are listed or the next free round stands for them, and `dropInput` writes their two fields alone. -/
theorem anInputIsTakenInOrder : Obligations.AnInputIsTakenInOrder := by
  intro s
  refine ⟨pending_eq s, fun e rest h => ?listed, inputs_nil, rfl, ?frame⟩
  case listed =>
    obtain ⟨hnext, hdrop⟩ := inputs_cons h
    rw [hdrop]
    exact ⟨hnext, rfl, rfl⟩
  case frame =>
    apply frame_of_fields
    case hv => exact fun _ _ => rfl
    case inputs | rounds => exact fun h => absurd (by decide) h
    all_goals exact fun _ => rfl

/-! ### The step of a live block, an equation per event (R104) -/

section
variable {s : State} (hl : s.live)
include hl

theorem step_timerTick (hn : s.nextInput = .timerTick) : step s = .next s.dropInput.freeTick := by
  rw [step_live hl, hn, agentStep]

theorem step_keyDown {k : Nibble} (hn : s.nextInput = .keyDown k) : step s = .next (s.dropInput.keyDown k) := by
  rw [step_live hl, hn, agentStep]

theorem step_keyUp {k : Nibble} (hn : s.nextInput = .keyUp k) : step s = .next (s.dropInput.keyUp k) := by
  rw [step_live hl, hn, agentStep]

theorem step_quit (hn : s.nextInput = .quit) : step s = .next s.dropInput.quitNow := by
  rw [step_live hl, hn, agentStep]

end

/-- A CPU step answers a next state: a fetch fault, an instruction or an unknown word (R50). -/
theorem cpuStep_next (s : State) : ∃ t, cpuStep s = .next t := by
  cases hf : s.fetch16 with
  | none => exact ⟨_, cpuStep_of_fetch16_none hf⟩
  | some w =>
    cases hd : decodeWord w with
    | ok i =>
      obtain ⟨t, ht⟩ := everyInstructionAnswersANextState i s
      exact ⟨t.quirkTick, by rw [cpuStep_of_decodeWord_ok hf hd, ht, afterCpu]⟩
    | error e => exact ⟨_, cpuStep_of_decodeWord_error hf hd⟩

/-- Settles O12: each agent's step answers a next state, and a strobe during a wait is taken alone. -/
theorem liveBlockSteps : Obligations.LiveBlockSteps := by
  intro s hl
  cases hn : s.nextInput with
  | cycle =>
    rcases hl with hr | ⟨x, hr⟩
    · rw [step_cycle hr hn]
      exact cpuStep_next s.dropInput
    · exact ⟨_, noCpuStepWhileWaiting s x hr hn⟩
  | timerTick => exact ⟨_, step_timerTick hl hn⟩
  | keyDown k => exact ⟨_, step_keyDown hl hn⟩
  | keyUp k => exact ⟨_, step_keyUp hl hn⟩
  | quit => exact ⟨_, step_quit hl hn⟩

end Sys2Proof.Machine
end

section
/-! ## The timer engine (spec/60_exceptions.md R104 to R106): what a tick does, and where the ticks fall. -/

namespace Sys2Proof.Machine

/-! ### The tick (R105) -/

/-- A timer above 0 goes down by 1, and a timer at 0 stays (R105). -/
theorem toNat_countDown (b : Byte) : (if 0 < b.toNat then b - 1#8 else b).toNat = b.toNat - 1 := by
  have hb := b.isLt
  by_cases h : 0 < b.toNat
  · rw [if_pos h, BitVec.toNat_sub]
    simp only [BitVec.toNat_ofNat]
    omega
  · rw [if_neg h]
    omega

theorem timerTick_dt_toNat (s : State) : s.timerTick.dt.toNat = s.dt.toNat - 1 := toNat_countDown s.dt
theorem timerTick_st_toNat (s : State) : s.timerTick.st.toNat = s.st.toNat - 1 := toNat_countDown s.st

/-- The tone test reads ST before the decrement (R105). -/
theorem timerTick_tone_iff (s : State) : s.timerTick.tone = true ↔ 0 < s.st.toNat := decide_eq_true_iff

/-- A step that changes the timers and the tone alone. -/
theorem frame_of_timers_tone {s t : State} (h : t = { s with dt := t.dt, st := t.st, tone := t.tone }) :
    Frame [] [.delayTimer, .soundTimer, .tone] s t := by
  rw [h]
  apply frame_of_fields
  case hv => exact fun _ _ => rfl
  case delay | sound | tone => exact fun h => absurd (by decide) h
  all_goals exact fun _ => rfl

/-- Without the quirk the timer engine steps freely (R104). -/
theorem freeTick_off {s : State} (hq : s.params.quirkTimerPerInstruction = false) : s.freeTick = s.timerTick := by
  rw [State.freeTick, hq]
  rfl

/-- With the quirk the timer engine has no free step (R104). -/
theorem freeTick_on {s : State} (hq : s.params.quirkTimerPerInstruction = true) : s.freeTick = s := by
  rw [State.freeTick, hq]
  rfl

/-- Settles O46: without the quirk the event is the tick. -/
theorem timerTickCountsDown : Obligations.TimerTickCountsDown := by
  intro s hl hn hq
  have hstep : step s = .next s.dropInput.timerTick := by
    rw [step_timerTick hl hn, freeTick_off (s := s.dropInput) hq]
  exact ⟨_, hstep, timerTick_dt_toNat s.dropInput, timerTick_st_toNat s.dropInput, timerTick_tone_iff s.dropInput, rfl,
    frame_of_timers_tone rfl⟩

/-! ### A run of ticks (R106) -/

/-- The last of k + 1 ticks is a tick after k. -/
theorem ticks_succ (k : Nat) (s : State) : ticks (k + 1) s = (ticks k s).timerTick := by
  induction k generalizing s with
  | zero => rfl
  | succ k ih => exact ih s.timerTick

theorem ticks_st_toNat (k : Nat) (s : State) : (ticks k s).st.toNat = s.st.toNat - k := by
  induction k with
  | zero => rfl
  | succ k ih => rw [ticks_succ, timerTick_st_toNat, ih, Nat.sub_sub]

theorem ticks_dt_toNat (k : Nat) (s : State) : (ticks k s).dt.toNat = s.dt.toNat - k := by
  induction k with
  | zero => rfl
  | succ k ih => rw [ticks_succ, timerTick_dt_toNat, ih, Nat.sub_sub]

theorem ticks_succ_tone (k : Nat) (s : State) : (ticks (k + 1) s).tone = decide (k < s.st.toNat) := by
  rw [ticks_succ, timerTick_tone, ticks_st_toNat, decide_eq_decide]
  exact Nat.sub_pos_iff_lt

/-- Settles O47: ST and DT count down together, and the last tick's tone reads ST before it. -/
theorem toneLastsAsManyTicksAsSt : Obligations.ToneLastsAsManyTicksAsSt := fun s k =>
  ⟨ticks_succ_tone k s, ticks_st_toNat k s, ticks_dt_toNat k s⟩

end Sys2Proof.Machine
end

section
/-! ## The keypad and quit (spec/60_exceptions.md R108, R109, R112), and the ticks that the quirk ties to the CPU (R104). -/

namespace Sys2Proof.Machine

/-! ### A key goes up, or the host quits (R109, R112) -/

/-- The release of a key changes the pressed keys alone. -/
theorem frame_keyUp (s : State) (k : Nibble) : Frame [] [.pressed] s (s.keyUp k) := by
  apply frame_of_fields
  case hv => exact fun _ _ => rfl
  case pressed => exact fun h => absurd (by decide) h
  all_goals exact fun _ => rfl

/-- Exactly the released key is taken out. -/
theorem isPressed_keyUp (s : State) (k j : Nibble) : (s.keyUp k).isPressed j = (s.isPressed j && decide (j ≠ k)) := by
  rw [State.keyUp, isPressed_setPressed]
  by_cases h : j = k <;> simp [h]

/-- Settles O45: the step is the release. -/
theorem keyUpReleasesTheKey : Obligations.KeyUpReleasesTheKey := fun k s hl hn =>
  ⟨_, step_keyUp hl hn, isPressed_keyUp s.dropInput k, rfl, frame_keyUp s.dropInput k⟩

/-- Quit changes run alone. -/
theorem frame_quitNow (s : State) : Frame [] [.run] s s.quitNow :=
  frame_of_timers_run rfl (fun _ => rfl) (fun _ => rfl) fun h => absurd (List.mem_singleton_self _) h

/-- Settles O49: the step writes run alone, and Quit is final. -/
theorem quitChangesRunAlone : Obligations.QuitChangesRunAlone := by
  intro s hl hn
  have hfinal : step s.dropInput.quitNow = .fault .endedQuit := (faultedAndQuitAreFinal s.dropInput.quitNow).2 rfl
  exact ⟨_, step_quit hl hn, rfl, rfl, frame_quitNow s.dropInput, hfinal⟩

/-! ### A key goes down (R108) -/

@[simp] theorem press_dt (s : State) (k : Nibble) : (s.press k).dt = s.dt := by rw [press_fields]
@[simp] theorem press_st (s : State) (k : Nibble) : (s.press k).st = s.st := by rw [press_fields]
@[simp] theorem press_tone (s : State) (k : Nibble) : (s.press k).tone = s.tone := by rw [press_fields]
@[simp] theorem press_inputs (s : State) (k : Nibble) : (s.press k).inputs = s.inputs := by rw [press_fields]
@[simp] theorem press_rounds (s : State) (k : Nibble) : (s.press k).rounds = s.rounds := by rw [press_fields]

/-- A press changes the keypad alone. -/
theorem frame_press (s : State) (k : Nibble) : Frame [] [.pressed, .last] s (s.press k) := by
  rw [press_fields]
  apply frame_of_fields
  case hv => exact fun _ _ => rfl
  case pressed | last => exact fun h => absurd (by decide) h
  all_goals exact fun _ => rfl

/-- k is pressed, and of the other keys those that were pressed and not the most-recent one. -/
theorem isPressed_press_eq (s : State) (k j : Nibble) :
    (s.press k).isPressed j = (decide (j = k) || (s.isPressed j && decide (s.last ≠ some j))) := by
  rw [isPressed_press]
  by_cases hk : j = k
  · simp [hk]
  · by_cases hlast : s.last = some j <;> simp [hk, hlast]

/-- The state in which KeyDown(k) leaves a block whose FX0A waits, before the tick of the quirk (R93). -/
def State.completeWait (s : State) (x k : Nibble) : State :=
  { (s.press k).writeV x (BitVec.ofNat 8 k.toNat) with run := .running }

section
variable (s : State) (x k : Nibble)

@[simp] theorem completeWait_pc : (s.completeWait x k).pc = s.pc := press_pc s k
@[simp] theorem completeWait_dt : (s.completeWait x k).dt = s.dt := press_dt s k
@[simp] theorem completeWait_st : (s.completeWait x k).st = s.st := press_st s k
@[simp] theorem completeWait_last : (s.completeWait x k).last = some k := press_last s k
@[simp] theorem completeWait_run : (s.completeWait x k).run = .running := rfl
@[simp] theorem completeWait_tone : (s.completeWait x k).tone = s.tone := press_tone s k
@[simp] theorem completeWait_params : (s.completeWait x k).params = s.params := press_params s k

theorem isPressed_completeWait (j : Nibble) : (s.completeWait x k).isPressed j = (s.press k).isPressed j := rfl

/-- V[x] holds the key's code. -/
theorem readV_completeWait_toNat : ((s.completeWait x k).readV x).toNat = k.toNat := by
  have hk := k.isLt
  change (((s.press k).writeV x (BitVec.ofNat 8 k.toNat)).readV x).toNat = k.toNat
  rw [readV_writeV_self, BitVec.toNat_ofNat]
  omega

end

/-! ### Frames, one after the other (R53) -/

theorem Part.Kept.trans {s t u : State} {p : Part} (hst : Part.Kept s t p) (htu : Part.Kept t u p) : Part.Kept s u p := by
  cases p with
  | screen => exact fun x y => (htu x y).trans (hst x y)
  | memory | pressed => exact fun a => (htu a).trans (hst a)
  | _ => exact Eq.trans htu hst

/-- Two steps in turn change what either of them may. -/
theorem Frame.trans {s t u : State} {regs regs' : List Nibble} {parts parts' : List Part} (hst : Frame regs parts s t)
    (htu : Frame regs' parts' t u) : Frame (regs ++ regs') (parts ++ parts') s u := by
  obtain ⟨hregs, hparts⟩ := hst
  obtain ⟨hregs', hparts'⟩ := htu
  constructor
  · intro r hr
    rw [List.mem_append, not_or] at hr
    exact (hregs' r hr.2).trans (hregs r hr.1)
  · intro p hp
    rw [List.mem_append, not_or] at hp
    exact (hparts p hp.1).trans (hparts' p hp.2)

/-- The completion of FX0A changes V[x], the keypad and run. -/
theorem frame_completeWait (s : State) (x k : Nibble) : Frame [x] [.pressed, .last, .run] s (s.completeWait x k) := by
  refine (frame_press s k).trans (regs' := [x]) (parts' := [.run]) ?_
  apply frame_of_fields
  case hv => exact fun r hr => readV_writeV_other (s.press k) _ (List.ne_of_not_mem_cons hr)
  case run => exact fun h => absurd (by decide) h
  all_goals exact fun _ => rfl

/-! ### The tick that the quirk ties to the CPU (R104) -/

/-- The tick of the quirk changes at most the timers and the tone. -/
theorem quirkTick_fields (s : State) :
    s.quirkTick = { s with dt := s.quirkTick.dt, st := s.quirkTick.st, tone := s.quirkTick.tone } := by
  rcases quirkTick_cases s with h | h <;> rw [h]
  rfl

@[simp] theorem quirkTick_pc (s : State) : s.quirkTick.pc = s.pc := by rw [quirkTick_fields]
@[simp] theorem quirkTick_last (s : State) : s.quirkTick.last = s.last := by rw [quirkTick_fields]
@[simp] theorem quirkTick_run (s : State) : s.quirkTick.run = s.run := by rw [quirkTick_fields]
@[simp] theorem quirkTick_inputs (s : State) : s.quirkTick.inputs = s.inputs := by rw [quirkTick_fields]
@[simp] theorem quirkTick_rounds (s : State) : s.quirkTick.rounds = s.rounds := by rw [quirkTick_fields]

theorem readV_quirkTick (s : State) (r : Nibble) : s.quirkTick.readV r = s.readV r := readV_congr (by rw [quirkTick_fields]) r

theorem isPressed_quirkTick (s : State) (k : Nibble) : s.quirkTick.isPressed k = s.isPressed k :=
  isPressed_congr (by rw [quirkTick_fields]) k

/-- No tick is tied to an instruction that does not leave the block Running (R104). -/
theorem quirkTick_not_running {s : State} (hr : s.run ≠ .running) : s.quirkTick = s := by
  simp [State.quirkTick, hr]

/-- A key-down while FX0A waits completes it, and the tick of the quirk follows. -/
theorem step_keyDown_waitKey {s : State} {x k : Nibble} (hr : s.run = .waitKey x) (hn : s.nextInput = .keyDown k) :
    step s = .next (s.dropInput.completeWait x k).quirkTick := by
  rw [step_keyDown (live_of_waitKey hr) hn, keyDown_completes (s := s.dropInput) k hr]
  rfl

/-- Settles O44: while Running the step is the press; while FX0A waits it is the completion, with the tick of the quirk. -/
theorem keyDownLatchesOneKeyAndEndsTheWait : Obligations.KeyDownLatchesOneKeyAndEndsTheWait := by
  intro k s hn
  refine ⟨fun hr => ?running, fun x hr => ?waiting⟩
  case running =>
    have hstep : step s = .next (s.dropInput.press k) := by
      rw [step_keyDown (live_of_running hr) hn, keyDown_running (s := s.dropInput) k hr]
    exact ⟨_, hstep, press_last _ k, isPressed_press_eq s.dropInput k, press_pc _ k, frame_press s.dropInput k⟩
  case waiting =>
    refine ⟨_, step_keyDown_waitKey hr hn, by simp, ?code, by simp, fun j => ?latch, by simp,
      (frame_completeWait s.dropInput x k).trans (frame_of_timers_tone (quirkTick_fields _)), fun hq => ?off, fun hq => ?on⟩
    case code => rw [readV_quirkTick, readV_completeWait_toNat]
    case latch =>
      rw [isPressed_quirkTick, isPressed_completeWait]
      exact isPressed_press_eq s.dropInput k j
    case off =>
      rw [quirkTick_off (by simpa using hq)]
      simp
    case on =>
      rw [quirkTick_on (by simpa using hq) rfl, timerTick_dt_toNat, timerTick_st_toNat, timerTick_tone_iff]
      simp

/-- Settles O48: where the quirk's tick falls is what `quirkTick` says of the state that the CPU step or the key leaves. -/
theorem quirkTicksOncePerInstruction : Obligations.QuirkTicksOncePerInstruction := by
  intro s hq
  refine ⟨fun hl hn => ?free, fun hr hn hpc => ⟨fun i t hd ht => ?instruction, fun w hw hrow => ?unknown⟩,
    fun x k hr hn => ⟨s.dropInput.completeWait x k, by simp, ?key⟩⟩
  case free => rw [step_timerTick hl hn, freeTick_on (s := s.dropInput) hq]
  case instruction =>
    obtain ⟨-, -, -, hparams, -, -⟩ := instructionsLeaveToneAndKeypad i _ t ht
    have hstep : step s = .next t.quirkTick := by
      rw [step_of_decode_ok hr hn hpc hd, ht, afterCpu]
    constructor
    · intro hrun
      rw [hstep, quirkTick_on (hparams ▸ hq) hrun]
    · intro hrun
      rw [hstep, quirkTick_not_running hrun]
  case unknown => rw [step_of_no_row hr hn hpc hw hrow, quirkTick_on (s := s.dropInput.reportUnknown w) hq hr]
  case key => rw [step_keyDown_waitKey hr hn, quirkTick_on (by simpa using hq) rfl]

end Sys2Proof.Machine
end

section
/-! ## Fairness (spec/60_exceptions.md R104, R107): the events that a block is known to meet, a run up to one of them, and the
timers during a wait. -/

namespace Sys2Proof.Machine

/-! ### A step takes one input and no other (R26) -/

/-- The events on their way and the count of free rounds are the same. -/
def SameInputs (s t : State) : Prop := t.inputs = s.inputs ∧ t.rounds = s.rounds

theorem sameInputs_cpuStep {s t : State} (h : cpuStep s = .next t) : SameInputs s t := by
  rcases cpuStep_cases h with ⟨-, rfl⟩ | ⟨w, i, u, -, -, hu, rfl⟩ | ⟨w, e, -, -, rfl⟩
  · exact ⟨rfl, rfl⟩
  · obtain ⟨-, -, -, -, hinputs, hrounds⟩ := instructionsLeaveToneAndKeypad i s u hu
    exact ⟨(quirkTick_inputs u).trans hinputs, (quirkTick_rounds u).trans hrounds⟩
  · exact ⟨quirkTick_inputs _, quirkTick_rounds _⟩

theorem sameInputs_keyDown {s : State} (k : Nibble) (hl : s.live) : SameInputs s (s.keyDown k) := by
  rcases hl with hr | ⟨x, hr⟩
  · rw [keyDown_running k hr]
    exact ⟨press_inputs s k, press_rounds s k⟩
  · rw [keyDown_completes k hr]
    exact ⟨(quirkTick_inputs _).trans (press_inputs s k), (quirkTick_rounds _).trans (press_rounds s k)⟩

/-- After a step the inputs are those left when its own was taken. -/
theorem sameInputs_step {s t : State} (h : step s = .next t) : SameInputs s.dropInput t := by
  obtain ⟨hl, hcases⟩ := step_cases h
  rcases hcases with ⟨-, -, hcpu⟩ | ⟨x, -, -, rfl⟩ | ⟨-, rfl⟩ | ⟨k, -, rfl⟩ | ⟨k, -, rfl⟩ | ⟨-, rfl⟩
  · exact sameInputs_cpuStep hcpu
  · exact ⟨rfl, rfl⟩
  · rcases freeTick_cases s.dropInput with h | h <;> rw [h] <;> exact ⟨rfl, rfl⟩
  · exact sameInputs_keyDown k hl
  · exact ⟨rfl, rfl⟩
  · exact ⟨rfl, rfl⟩

/-! ### The events a block is known to meet -/

/-- The listed inputs and the free round after them: in `inputs` alone the timer tick need not come. -/
def State.coming (s : State) : List Input := s.inputs ++ arrivalRound s.rounds

theorem coming_congr {s t : State} (h : SameInputs s t) : t.coming = s.coming := by
  obtain ⟨hinputs, hrounds⟩ := h
  rw [State.coming, hinputs, hrounds, State.coming]

/-- The next input is the first of the events known to come, and taking it can only make more of them known: those of the
round after the one it opens. -/
theorem coming_cons (s : State) : ∃ rest more, s.coming = s.nextInput :: rest ∧ s.dropInput.coming = rest ++ more := by
  cases h : s.inputs with
  | nil =>
    refine ⟨s.dropInput.inputs, arrivalRound s.dropInput.rounds, ?_, rfl⟩
    rw [← pending_eq, (inputs_nil h).1, State.coming, h, List.nil_append]
  | cons e rest =>
    obtain ⟨hnext, hdrop⟩ := inputs_cons h
    refine ⟨rest ++ arrivalRound s.rounds, [], ?_, ?_⟩
    · rw [State.coming, h, hnext, List.cons_append]
    · rw [hdrop, List.append_nil]
      rfl

/-- A free round holds a timer tick and a cycle strobe (R104). -/
theorem mem_coming (s : State) {e : Input} (he : e = .timerTick ∨ e = .cycle) : e ∈ s.coming := by
  rcases he with rfl | rfl <;> simp [State.coming, arrivalRound]

/-! ### A run up to an event (R104) -/

theorem runFor_succ {s t : State} (n : Nat) (h : step s = .next t) : runFor (n + 1) s = runFor n t := by
  simp only [runFor, h]

theorem runFor_add {s t : State} {m : Nat} (n : Nat) (h : runFor m s = some t) : runFor (m + n) s = runFor n t := by
  induction m generalizing s with
  | zero =>
    cases h
    rw [Nat.zero_add]
  | succ m ih =>
    cases hs : step s with
    | next u =>
      rw [Nat.succ_add, runFor_succ _ hs]
      exact ih ((runFor_succ m hs).symm.trans h)
    | fault f => simp [runFor, hs] at h
    | refused r => simp [runFor, hs] at h

/-- Where every step at another event than `e` keeps `P` or reaches `Q`, a run from `P` reaches `Q` or the coming event `e`. -/
theorem runs_until {P Q : State → Prop} {e : Input}
    (hstep : ∀ s, P s → s.nextInput ≠ e → ∃ t, step s = .next t ∧ (Q t ∨ P t)) {s : State} (hP : P s)
    {before after : List Input} (hs : s.coming = before ++ e :: after) :
    ∃ n t, n ≤ before.length ∧ runFor n s = some t ∧ (Q t ∨ P t ∧ t.nextInput = e) := by
  induction before generalizing s after with
  | nil =>
    obtain ⟨rest, more, hcoming, -⟩ := coming_cons s
    obtain ⟨hnext, -⟩ := List.cons.inj (hcoming.symm.trans hs)
    exact ⟨0, s, le_refl _, rfl, .inr ⟨hP, hnext⟩⟩
  | cons a before ih =>
    by_cases hnext : s.nextInput = e
    · exact ⟨0, s, Nat.zero_le _, rfl, .inr ⟨hP, hnext⟩⟩
    obtain ⟨t, ht, hQ | hPt⟩ := hstep s hP hnext
    · exact ⟨1, t, Nat.succ_le_succ (Nat.zero_le _), runFor_succ 0 ht, .inl hQ⟩
    · obtain ⟨rest, more, hcoming, hdrop⟩ := coming_cons s
      obtain ⟨-, hrest⟩ : _ ∧ rest = before ++ e :: after := List.cons.inj (hcoming.symm.trans hs)
      have htcoming : t.coming = before ++ e :: (after ++ more) := by
        rw [coming_congr (sameInputs_step ht), hdrop, hrest, List.append_assoc, List.cons_append]
      obtain ⟨n, u, hn, hrun, hu⟩ := ih hPt htcoming
      exact ⟨n + 1, u, Nat.succ_le_succ hn, (runFor_succ n ht).trans hrun, hu⟩

/-- Settles O13: the event stands among the listed inputs and the next free round, and a live block steps up to it. -/
theorem ticksAndStrobesComeAgain : Obligations.TicksAndStrobesComeAgain := by
  intro s e hl he
  obtain ⟨before, after, hs⟩ := List.append_of_mem (mem_coming s he)
  have hstep : ∀ s : State, s.live → s.nextInput ≠ e → ∃ t, step s = .next t ∧ (¬ t.live ∨ t.live) := by
    intro s hl _
    obtain ⟨t, ht⟩ := liveBlockSteps s hl
    exact ⟨t, ht, (em t.live).symm⟩
  obtain ⟨n, t, hn, hrun, ht⟩ := runs_until hstep hl hs
  refine ⟨n, t, ?bound, hrun, ht.imp_right And.right⟩
  case bound =>
    have hlen : s.inputs.length + (arrivalRound s.rounds).length = before.length + (after.length + 1) := by
      rw [← List.length_append, ← List.length_cons, ← List.length_append, ← hs, State.coming]
    omega

/-! ### The timers during a wait (R107) -/

/-- `t` waits for V[x], without the quirk, with the timers and the tone of `s`. -/
structure WaitsWithTimersOf (x : Nibble) (s t : State) : Prop where
  run : t.run = .waitKey x
  quirk : t.params.quirkTimerPerInstruction = false
  dt : t.dt = s.dt
  st : t.st = s.st
  tone : t.tone = s.tone

/-- During a wait only the tick moves the timers and the tone; a key-down or quit ends the wait. -/
theorem waitsWithTimersOf_step {x : Nibble} {s t : State} (h : WaitsWithTimersOf x s t) (hn : t.nextInput ≠ .timerTick) :
    ∃ u, step t = .next u ∧ (u.run ≠ .waitKey x ∨ WaitsWithTimersOf x s u) := by
  have hl := live_of_waitKey h.run
  cases he : t.nextInput with
  | cycle => exact ⟨_, noCpuStepWhileWaiting t x h.run he, .inr { h with }⟩
  | timerTick => exact absurd he hn
  | keyDown k =>
    refine ⟨_, step_keyDown_waitKey h.run he, .inl ?_⟩
    rw [quirkTick_run, completeWait_run]
    nofun
  | keyUp k => exact ⟨_, step_keyUp hl he, .inr { h with }⟩
  | quit => exact ⟨_, step_quit hl he, .inl nofun⟩

/-- A tick during a wait. -/
theorem waitsWithTimersOf_tick {x : Nibble} {s t : State} (h : WaitsWithTimersOf x s t) (hn : t.nextInput = .timerTick) :
    ∃ u, step t = .next u ∧ WaitsWithTimersOf x s.timerTick u := by
  have hstep : step t = .next t.dropInput.timerTick := by
    rw [step_timerTick (live_of_waitKey h.run) hn, freeTick_off (s := t.dropInput) h.quirk]
  refine ⟨_, hstep, h.run, h.quirk, ?dt, ?st, ?tone⟩
  case dt => rw [timerTick_dt, timerTick_dt, dropInput_dt, h.dt]
  case st => rw [timerTick_st, timerTick_st, dropInput_st, h.st]
  case tone => rw [timerTick_tone, timerTick_tone, dropInput_st, h.st]

/-- A wait ends or meets as many ticks as one likes, since the tick comes again and again. -/
theorem wait_ends_or_ticks (k : Nat) {x : Nibble} {s t : State} (h : WaitsWithTimersOf x s t) :
    ∃ n u, runFor n t = some u ∧ (u.run ≠ .waitKey x ∨ WaitsWithTimersOf x (ticks k s) u) := by
  induction k generalizing s t with
  | zero => exact ⟨0, t, rfl, .inr h⟩
  | succ k ih =>
    obtain ⟨before, after, hs⟩ := List.append_of_mem (mem_coming t (.inl rfl))
    obtain ⟨m, u, -, hrun, hends | ⟨hu, hn⟩⟩ := runs_until (fun _ => waitsWithTimersOf_step) h hs
    · exact ⟨m, u, hrun, .inl hends⟩
    · obtain ⟨v, hstep, hv⟩ := waitsWithTimersOf_tick hu hn
      obtain ⟨n, w, hrest, hw⟩ := ih hv
      refine ⟨m + (n + 1), w, ?_, hw⟩
      rw [runFor_add (n + 1) hrun, runFor_succ n hstep, hrest]

/-- After 256 ticks both timers are 0 and the tone is paused (R106). -/
theorem ticks_256_run_out (s : State) :
    (ticks 256 s).dt = 0#8 ∧ (ticks 256 s).st = 0#8 ∧ (ticks 256 s).tone = false := by
  have hdt := s.dt.isLt
  have hst := s.st.isLt
  refine ⟨BitVec.eq_of_toNat_eq ?_, BitVec.eq_of_toNat_eq ?_, ?_⟩
  · rw [ticks_dt_toNat, BitVec.toNat_ofNat]
    omega
  · rw [ticks_st_toNat, BitVec.toNat_ofNat]
    omega
  · rw [ticks_succ_tone, decide_eq_false_iff_not]
    omega

/-- Settles O14: a wait that does not end meets 256 ticks. -/
theorem timersRunOutDuringAWait : Obligations.TimersRunOutDuringAWait := by
  intro s x hr hq
  obtain ⟨n, t, hrun, hends | ht⟩ := wait_ends_or_ticks 256 (⟨hr, hq, rfl, rfl, rfl⟩ : WaitsWithTimersOf x s s)
  · exact ⟨n, t, hrun, .inl hends⟩
  · obtain ⟨hdt, hst, htone⟩ := ticks_256_run_out s
    exact ⟨n, t, hrun, .inr ⟨ht.dt.trans hdt, ht.st.trans hst, ht.tone.trans htone⟩⟩

end Sys2Proof.Machine
end

section
/-! ## Load (spec/70_reset_and_hazards.md R117, R118): the state that a successful load answers, and the invariant of it. -/

namespace Sys2Proof.Machine

/-- The block right after a successful load: as at reset, but for the program and the four pieces that `load` keeps. -/
def State.loaded (program : List Byte) (s : State) : State :=
  { State.reset with
    mem := Memory.writeBytes State.reset.mem Config.progBase program
    params := s.params
    inputs := s.inputs
    rounds := s.rounds
    draws := s.draws }

/-- Load answers a state exactly when the program has at most MAX_PROGRAM bytes, and then it is `loaded`. -/
theorem load_eq_next_iff {program : List Byte} {s t : State} :
    load program s = .next t ↔ program.length ≤ Config.maxProgram ∧ t = s.loaded program := by
  constructor
  · intro h
    rcases Nat.lt_or_ge Config.maxProgram program.length with hlong | hfits
    · rw [load_tooLarge s hlong] at h
      nomatch h
    · rw [load_fits s hfits] at h
      cases h
      exact ⟨hfits, rfl⟩
  · rintro ⟨hfits, rfl⟩
    exact load_fits s hfits

/-! ### Memory and the frame of `loaded` -/

/-- Byte k of the program stands at 0x200 + k. -/
theorem readMem_loaded_program (program : List Byte) (s : State) (k : Nat) (h : k < program.length) :
    (s.loaded program).readMem (Config.progBase + k) = program[k] :=
  read_writeBytes_inside _ _ program reset_mem_wf.1 k h

/-- Outside the program memory is as at reset. -/
theorem readMem_loaded_outside (program : List Byte) (s : State) {a : Nat}
    (h : a < Config.progBase ∨ Config.progBase + program.length ≤ a) :
    (s.loaded program).readMem a = State.reset.readMem a :=
  read_writeBytes_outside _ _ program a h

/-- The 3584 bytes from 0x200 on end with the address space, so a program that fits keeps memory canonical (R118). -/
theorem loaded_mem_wf {program : List Byte} (s : State) (h : program.length ≤ Config.maxProgram) :
    Memory.wf (s.loaded program).mem := by
  have hend : Config.progBase + program.length ≤ Config.memSize :=
    calc Config.progBase + program.length
      _ ≤ Config.progBase + Config.maxProgram := Nat.add_le_add_left h _
      _ = Config.memSize := by decide
  exact writeBytes_wf _ program reset_mem_wf hend

/-- Every register and every piece of the spec's state but memory is as at reset (R27). -/
theorem frame_loaded (program : List Byte) (s : State) :
    Frame [] [.memory, .params, .inputs, .rounds, .draws] State.reset (s.loaded program) := by
  apply frame_of_fields
  case hv => exact fun _ _ => rfl
  case memory | params | inputs | rounds | draws => exact fun h => absurd (by decide) h
  all_goals exact fun _ => rfl

/-! ### The statements -/

/-- Settles O51: a program fits or is too large by its length alone, and `loaded` is reset with the program written over it. -/
theorem loadPlacesTheProgramOrRefusesIt : Obligations.LoadPlacesTheProgramOrRefusesIt := by
  intro program s
  constructor
  · intro hfits
    exact ⟨s.loaded program, load_eq_next_iff.mpr ⟨hfits, rfl⟩, readMem_loaded_program program s,
      fun _ ha => readMem_loaded_outside program s ha, rfl, loaded_mem_wf s hfits, rfl, rfl, rfl, rfl, frame_loaded program s⟩
  · exact load_tooLarge s

/-- Memory and STACK_DEPTH aside, the invariant speaks of fields that `loaded` has from reset. -/
theorem inv_loaded {program : List Byte} {s : State} (hdepth : 16 ≤ s.params.stackDepth)
    (hfits : program.length ≤ Config.maxProgram) : Inv (s.loaded program) where
  memory := loaded_mem_wf s hfits
  depth := hdepth
  stackBound := Nat.zero_le _
  returns := invariantAtReset.returns
  pcBound := invariantAtReset.pcBound
  latch := invariantAtReset.latch
  faultPc := invariantAtReset.faultPc

/-- Settles O53: what load answers is `loaded` of a program that fits, and a well-formed STACK_DEPTH is at least 16. -/
theorem invariantAfterLoad : Obligations.InvariantAfterLoad := by
  intro program s t hwf hload
  obtain ⟨hfits, rfl⟩ := load_eq_next_iff.mp hload
  exact inv_loaded (of_decide_eq_true hwf) hfits

end Sys2Proof.Machine
end
